-- ==== Sys2Proof/Word.lean ====
section
/-! DEFINITION. The word, byte and register-index types of the vmrs core (10_state.md R10, 20_memory.md R30). -/

namespace Sys2Proof

/-- A 16-bit word: a register, a memory word, an instruction word or a word address (R10, R30). -/
abbrev Word := BitVec 16

/-- An 8-bit character of INPUT and OUT (R16). -/
abbrev Byte := BitVec 8

/-- A general-register index, a 3-bit number; every value names a register (R10). -/
abbrev Reg := BitVec 3

end Sys2Proof
end

