-- ==== Sys2Proof/Config.lean ====
section
/-! DEFINITION. What the spec leaves to the implementation (00_scope.md section 5): two byte strings
and the answers of the host, with no value anywhere in the model. INIT_MEM, the other parameter, is an argument of
`Machine.State.resetWith`. -/

namespace Sys2Proof

/-- IN_PROMPT, the prompt the IN service writes (R124, D19): a finite byte string, possibly empty, which the
spec does not give. Opaque: no proof can see its bytes. Log entry 9. -/
opaque Config.inPrompt : List Byte

/-- HALT_MSG, the shutdown message the HALT service writes (R126, D19): as `Config.inPrompt`. Log entry 9. -/
opaque Config.haltMsg : List Byte

/-- What the host numbered `host` answers to a consultation of INPUT, `asked` consultations after those its list of
answers gives (R16, D18, U8): a character that can be taken now, or none. Opaque: no proof can see an answer, so what
is proved holds for every behaviour of the oracle. Log entry 3. -/
opaque Config.hostAnswer (host asked : Nat) : Option Byte

end Sys2Proof
end

