-- ==== Sys2Proof/Machine/Map.lean ====
section
/-! DEFINITION. The fixed numbers of the machine: the reset pc and the keyboard's addresses
(00_scope.md section 5, 20_memory.md R32, R33). -/

namespace Sys2Proof.Machine

/-- RESET_PC, the reset value of the program counter (R18, R161; C1). -/
def resetPc : Word := 0x3000#16

/-- KBSR_ADDR, the keyboard status word (R33). -/
def kbsrAddr : Word := 0xFE00#16

/-- KBDR_ADDR, the keyboard data word (R33). -/
def kbdrAddr : Word := 0xFE02#16

/-- KB_POLL_ADDR, the address whose read polls the keyboard (R34; C4): KBDR's. -/
def kbPollAddr : Word := kbdrAddr

end Sys2Proof.Machine
end

