-- ==== Sys2Proof/Machine/State.lean ====
section
/-! DEFINITION. The machine's state as plain data (10_state.md), its reset (R18), and the reasons a step stops. -/

namespace Sys2Proof.Machine

/-- The run state (R15). -/
inductive RunState where
  | running
  | halted
  | faulted
  deriving DecidableEq, Repr

/-- The three fault causes (R140), the spec's own names for what `raise` reports; no state holds one (R142). -/
inductive FaultCause where
  /-- RTI or RES was executed; `op` is the 4-bit opcode (R128, R129). -/
  | reservedOpcode (op : BitVec 4)
  /-- TRAP was executed with a vector outside 0x20 to 0x25 (R127). -/
  | unknownTrapVector (v : BitVec 8)
  /-- An address outside 0 to 65535: defined, and raised by nothing (R43, R140; C9). -/
  | addressOutOfRange
  deriving DecidableEq, Repr

/-- The two services that wait for a character (R77): GETC (R121) and IN (R124). -/
inductive CharService where
  | getc
  | inp
  deriving DecidableEq, Repr

/-- The two services that read a string (R123, R125). -/
inductive StringKind where
  | puts
  | putsp
  deriving DecidableEq, Repr

/-- A TRAP step that has begun and is not complete: a service that waits for a character (R77), or a string service
that goes on at the address `next` (R123, R125). Log entries 5 and 7. -/
inductive Service where
  | char (k : CharService)
  | string (k : StringKind) (next : Word)
  deriving DecidableEq, Repr

/-- The host oracle of INPUT (R16, D18, D28) as plain data: its answers to the successive consultations of
InputAvailable(), oldest first. `some c` says a character is available, which InputTake() then returns; `none`
says none can be taken now. After the listed answers the free ones of `Config.hostAnswer` follow, those of the host
numbered `host` from its answer `asked` on: so every behaviour of an oracle, constant or not, is one of these. Log
entry 3. -/
structure HostInput where
  answers : List (Option Byte)
  host : Nat
  asked : Nat
  deriving DecidableEq, Repr

/-- The memory array as (address, word) pairs, in the canonical form `Memory.wf` of Ops.lean (R30; log entry 1). -/
abbrev Memory := List (Nat × Word)

/-- The state of the machine: everything the table under R18 lists, and `serving`. -/
structure State where
  /-- R0 to R7 (R10). -/
  regs : Vector Word 8
  /-- The program counter, a word address (R12). -/
  pc : Word
  /-- The condition-flag register: bit 2 NEG, bit 1 ZRO, bit 0 POS (R13). -/
  cond : BitVec 3
  /-- The run state (R15). -/
  run : RunState
  /-- The memory array, with KBSR and KBDR among its words (R30, R33). -/
  mem : Memory
  /-- The host input stream INPUT (R16). -/
  input : HostInput
  /-- The host output stream OUT, oldest character first (R16). -/
  out : List Byte
  /-- The service whose TRAP step has begun and is not complete (R77, R123); the model's own field, log entry 5. -/
  serving : Option Service
  deriving DecidableEq, Repr

/-- Why the machine has no step. None of these is one of the spec's faults, which end in a state with `run`
Faulted. -/
inductive Fault where
  /-- Raised by `step` only, when `run` is Halted: no step exists (R75). Safe: the machine stops where the spec's does. -/
  | noStepHalted
  /-- Raised by `step` only, when `run` is Faulted: no step exists (R75). Safe, as above. -/
  | noStepFaulted
  deriving DecidableEq, Repr

/-- Why an instruction is refused. -/
inductive Refusal where
  /-- Raised by `exec`'s arm of an instruction that has no meaning yet, and by nothing else; no arm raises it now. Safe. -/
  | notModelled (mnemonic : String)
  deriving DecidableEq, Repr

/-- The outcome of an instruction or a step. -/
abbrev Result := Host.Outcome State Fault Refusal

/-- The machine after reset with memory INIT_MEM and the host's input oracle, the two parameters of R18. -/
def State.resetWith (initMem : Memory) (input : HostInput) : State where
  regs := Vector.replicate 8 0x0000#16
  pc := resetPc
  cond := 0b000#3
  run := .running
  mem := initMem
  input := input
  out := []
  serving := none

/-- The machine right after reset (R18) with nothing listed in memory (DESIGN CHOICE, log entry
2) and a host of which nothing is known (log entries 3 and 4). -/
def State.reset : State := State.resetWith [] { answers := [], host := 0, asked := 0 }

end Sys2Proof.Machine
end

