-- ==== Sys2Proof/Machine/Ops.lean ====
section
/-! DEFINITION. The named operations over memory, registers and the host streams, the fetch, and the raising
of a fault. Every instruction is written over these. -/

namespace Sys2Proof.Machine

/-- What an address that memory does not list reads as (DESIGN CHOICE, unsafe for State.reset only; log entry 2). -/
def unlistedWord : Word := 0x0000#16

/-- The word stored at an address, with no side effect: the spec's `mem[a]` (R30). -/
def Memory.read : Memory → Nat → Word
  | [], _ => unlistedWord
  | (b, u) :: m, a => if b = a then u else Memory.read m a

/-- `mem[a] <- v`, keeping the canonical form: writing what an unlisted address reads as removes the entry. -/
def Memory.write : Memory → Nat → Word → Memory
  | [], a, v => if v = unlistedWord then [] else [(a, v)]
  | (b, u) :: m, a, v =>
    if a < b then
      if v = unlistedWord then (b, u) :: m else (a, v) :: (b, u) :: m
    else if a = b then
      if v = unlistedWord then m else (a, v) :: m
    else (b, u) :: Memory.write m a v

/-- The canonical form: addresses strictly rising, inside the 65536 words (R30), and no entry equal to what an
unlisted address reads as. -/
abbrev Memory.wf (m : Memory) : Prop :=
  m.Pairwise (fun c d => c.1 < d.1) ∧ ∀ c ∈ m, c.1 < 65536 ∧ c.2 ≠ unlistedWord

/-- `x[i]`, the read of a general register (R10). -/
def State.reg (s : State) (i : Reg) : Word := s.regs[i.toFin]

/-- `x[i] <- v`, the write of a general register (R10: no register is hardwired). -/
def State.setReg (i : Reg) (v : Word) (s : State) : State := { s with regs := s.regs.set i.toFin v }

/-- `pc <- target` (R12). -/
def State.setPc (target : Word) (s : State) : State := { s with pc := target }

/-- `mem[a]`, with no side effect. -/
def State.peek (s : State) (a : Word) : Word := s.mem.read a.toNat

/-- `mem[a] <- v`, with no side effect. -/
def State.poke (a v : Word) (s : State) : State := { s with mem := s.mem.write a.toNat v }

/-- One consultation of the host's input oracle: InputAvailable() and, if it says so, InputTake() (R16, D28). -/
def HostInput.consult (h : HostInput) : Option Byte × HostInput :=
  match h.answers with
  | [] => (Config.hostAnswer h.host h.asked, { h with asked := h.asked + 1 })
  | a :: as => (a, { h with answers := as })

/-- The keyboard poll of a read of KBDR (R34): a character available is latched into KBDR and KBSR's READY
bit is set; otherwise KBSR is cleared. The words written are those of D15 (log entry 11). -/
def State.poll (s : State) : State :=
  match s.input.consult with
  | (some c, h) => (({ s with input := h }).poke kbdrAddr (c.zeroExtend 16)).poke kbsrAddr 0x8000#16
  | (none, h) => ({ s with input := h }).poke kbsrAddr 0x0000#16

/-- `MemRead(addr, 1)`: the word at `addr`, after a poll if `addr` is KBDR's (R34, D16). -/
def memRead (addr : Word) (s : State) : Word × State :=
  ((if addr = kbPollAddr then s.poll else s).peek addr, if addr = kbPollAddr then s.poll else s)

/-- `MemWrite(addr, 1, v)`: a plain write at every address (R35). -/
def memWrite (addr v : Word) (s : State) : State := s.poke addr v

/-- `Emit(b)` for each byte of a string, in order (R16, D29). -/
def emit (bs : List Byte) (s : State) : State := { s with out := s.out ++ bs }

/-- `raise F(info)`: the step ends, `run` becomes Faulted and nothing else is written (R141, R145). The cause is
reported nowhere (R142); `faultInfo` of Trap.lean finds it again from the faulting word. There is no return from
a fault (R147). -/
def raise (_cause : FaultCause) (s : State) : State := { s with run := .faulted }

/-- The fetch and the pc increment: `ir <- MemRead(pc, 1)`, then `pc <- (pc + 1) mod 2^16` (R70, R71). -/
def fetch (s : State) : Word × State :=
  ((memRead s.pc s).1, (memRead s.pc s).2.setPc (s.pc + 1))

/-- The end of a GETC or IN once a character is taken: IN echoes it, then both write R0 (R121, R124, D17). -/
def finishCharService (k : CharService) (c : Byte) (s : State) : State :=
  match k with
  | .getc => s.setReg 0 (c.zeroExtend 16)
  | .inp => (emit [c] s).setReg 0 (c.zeroExtend 16)

/-- "wait until InputAvailable(); c <- InputTake()": one consultation. With a character the service finishes,
without one the core waits and nothing else changes (R77; log entry 5). -/
def awaitChar (k : CharService) (s : State) : State :=
  match s.input.consult with
  | (some c, h) => finishCharService k c { s with input := h, serving := none }
  | (none, h) => { s with input := h, serving := some (.char k) }

/-- Reset applied to a machine that has already run (R160, D30): the registers, pc, flags, run state and OUT of
R18, and no service; memory and the host's input keep what they hold. It is an act of the host, not a step (log entry
14). -/
def State.warmReset (s : State) : State := State.resetWith s.mem s.input

/-- `s` with the word `w` where the next step fetches, and everything that fetch needs: the core Running and inside
no service, and, where pc is KBDR's address, a poll that finds no character and so leaves the word (R34; log
entries 13 and 15). -/
def State.withFetch (w : Word) (s : State) : State :=
  let s' := { s with run := .running, serving := none }.poke s.pc w
  if s.pc = kbPollAddr then { s' with input := { s'.input with answers := none :: s'.input.answers } } else s'

end Sys2Proof.Machine
end

