-- ==== Sys2Proof/Machine/Flags.lean ====
section
/-! DEFINITION. The condition-flag update logic (40_fetch_step.md R74) and BR's test of the flags (R110). -/

namespace Sys2Proof.Machine

/-- POS, bit 0 of `cond` (R13, D6). -/
def flagPos : BitVec 3 := 0b001#3

/-- ZRO, bit 1 of `cond` (R13). -/
def flagZro : BitVec 3 := 0b010#3

/-- NEG, bit 2 of `cond` (R13). -/
def flagNeg : BitVec 3 := 0b100#3

/-- The flag of a result: ZRO for 0, NEG if bit 15 is 1, else POS (R74). -/
def flagOf (v : Word) : BitVec 3 :=
  if v = 0x0000#16 then flagZro else if v.getLsbD 15 then flagNeg else flagPos

/-- `setcc(v)` (R74). -/
def setcc (v : Word) (s : State) : State := { s with cond := flagOf v }

/-- `x[DR] <- v; setcc(v)`: how each of the seven flag-updating instructions ends (R74: after the register write). -/
def writeResult (dr : Reg) (v : Word) (s : State) : State := setcc v (s.setReg dr v)

/-- BR's test: the mask ANDed with the flags is not zero (R110). -/
def branchTaken (nzp : BitVec 3) (s : State) : Bool := nzp &&& s.cond != 0b000#3

end Sys2Proof.Machine
end

