-- ==== Sys2Proof/Machine/Operands.lean ====
section
/-! DEFINITION. The operand forms: sign extension (30_encoding.md R53), the effective addresses (42_load.md R94) and
the characters packed in a word (R122, R125). -/

namespace Sys2Proof.Machine

/-- `sext_N(v)`: the N-bit field widened to 16 bits, its top bit the sign (R53). -/
def sext {n : Nat} (v : BitVec n) : Word := v.signExtend 16

/-- PC-relative address: `(pc + sext_N(off)) mod 2^16` on the incremented pc (R94, R54; N is 9, and 11 for JSR). -/
def pcRel {n : Nat} (s : State) (off : BitVec n) : Word := s.pc + sext off

/-- Base plus offset: `(x[BaseR] + sext_6(off6)) mod 2^16` (R94). -/
def baseOff (s : State) (baseR : Reg) (off6 : BitVec 6) : Word := s.reg baseR + sext off6

/-- Indirect address: the word read at the PC-relative address, with the state that read leaves (R94, R91, R101). -/
def indirect (s : State) (off9 : BitVec 9) : Word × State := memRead (pcRel s off9) s

/-- `w[7:0]` (R122). -/
def lowByte (w : Word) : Byte := w.extractLsb' 0 8

/-- `w[15:8]` (R125). -/
def highByte (w : Word) : Byte := w.extractLsb' 8 8

end Sys2Proof.Machine
end

