-- ==== Sys2Proof/Machine/Control.lean ====
section
/-! DEFINITION. The control transfers BR, JMP, JSR, JSRR (44_control.md). -/

namespace Sys2Proof.Machine

/-- BR (R110). -/
def execBr (nzp : BitVec 3) (off9 : BitVec 9) (s : State) : Result :=
  .next (if branchTaken nzp s then s.setPc (pcRel s off9) else s)

/-- JMP (R111). -/
def execJmp (baseR : Reg) (s : State) : Result := .next (s.setPc (s.reg baseR))

/-- `x[7] <- pc`, the link write of JSR and JSRR (R11, R112, R113). -/
def link (s : State) : State := s.setReg 7 s.pc

/-- JSR (R112). -/
def execJsr (off11 : BitVec 11) (s : State) : Result := .next ((link s).setPc (pcRel s off11))

/-- JSRR (R113): the link register is written first, then the base register is read (D8). -/
def execJsrr (baseR : Reg) (s : State) : Result :=
  .next ((link s).setPc ((link s).reg baseR))

end Sys2Proof.Machine
end

