-- ==== Sys2Proof/Machine/Load.lean ====
section
/-! DEFINITION. The loads LD, LDI, LDR and the address instruction LEA (42_load.md). -/

namespace Sys2Proof.Machine

/-- `v <- MemRead(ea, 1); x[DR] <- v; setcc(v)` (R90 to R92). -/
def loadTo (dr : Reg) (ea : Word) (s : State) : State :=
  writeResult dr (memRead ea s).1 (memRead ea s).2

/-- LD (R90). -/
def execLd (dr : Reg) (off9 : BitVec 9) (s : State) : Result := .next (loadTo dr (pcRel s off9) s)

/-- LDI (R91): the pointer read, then the data read. -/
def execLdi (dr : Reg) (off9 : BitVec 9) (s : State) : Result :=
  .next (loadTo dr (indirect s off9).1 (indirect s off9).2)

/-- LDR (R92). -/
def execLdr (dr baseR : Reg) (off6 : BitVec 6) (s : State) : Result := .next (loadTo dr (baseOff s baseR off6) s)

/-- LEA (R93): the address itself, no memory transaction. -/
def execLea (dr : Reg) (off9 : BitVec 9) (s : State) : Result := .next (writeResult dr (pcRel s off9) s)

end Sys2Proof.Machine
end

