-- ==== Sys2Proof/Machine/Store.lean ====
section
/-! DEFINITION. The stores ST, STI, STR (43_store.md). -/

namespace Sys2Proof.Machine

/-- ST (R100). -/
def execSt (sr : Reg) (off9 : BitVec 9) (s : State) : Result := .next (memWrite (pcRel s off9) (s.reg sr) s)

/-- STI (R101): the pointer read, then the write. -/
def execSti (sr : Reg) (off9 : BitVec 9) (s : State) : Result :=
  .next (memWrite (indirect s off9).1 ((indirect s off9).2.reg sr) (indirect s off9).2)

/-- STR (R102). -/
def execStr (sr baseR : Reg) (off6 : BitVec 6) (s : State) : Result :=
  .next (memWrite (baseOff s baseR off6) (s.reg sr) s)

end Sys2Proof.Machine
end

