-- ==== Sys2Proof/Syntax.lean ====
section
/-! DEFINITION. The instructions: one constructor for each of the 25 rows of spec/opcode_table.json.
Fields are raw, at the width 30_encoding.md R52 gives them; ignored bits (R58) are no field. -/

namespace Sys2Proof

/-- One instruction of the vmrs core, as decoded. -/
inductive Instr where
  /-- BR (R110): branch by off9 if nzp AND cond is not zero. -/
  | br (nzp : BitVec 3) (off9 : BitVec 9)
  /-- ADD, register mode (R80). -/
  | addReg (dr sr1 sr2 : Reg)
  /-- ADD, immediate mode (R81). -/
  | addImm (dr sr1 : Reg) (imm5 : BitVec 5)
  /-- LD (R90). -/
  | ld (dr : Reg) (off9 : BitVec 9)
  /-- ST (R100). -/
  | st (sr : Reg) (off9 : BitVec 9)
  /-- JSR (R112), the JSR opcode with longflag 1. -/
  | jsr (off11 : BitVec 11)
  /-- JSRR (R113), the JSR opcode with longflag 0. -/
  | jsrr (baseR : Reg)
  /-- AND, register mode (R82). -/
  | andReg (dr sr1 sr2 : Reg)
  /-- AND, immediate mode (R83). -/
  | andImm (dr sr1 : Reg) (imm5 : BitVec 5)
  /-- LDR (R92). -/
  | ldr (dr baseR : Reg) (off6 : BitVec 6)
  /-- STR (R102). -/
  | str (sr baseR : Reg) (off6 : BitVec 6)
  /-- RTI (R128), reserved. -/
  | rti
  /-- NOT (R85). -/
  | not (dr sr1 : Reg)
  /-- LDI (R91). -/
  | ldi (dr : Reg) (off9 : BitVec 9)
  /-- STI (R101). -/
  | sti (sr : Reg) (off9 : BitVec 9)
  /-- JMP (R111). -/
  | jmp (baseR : Reg)
  /-- RES (R129), reserved. -/
  | res
  /-- LEA (R93). -/
  | lea (dr : Reg) (off9 : BitVec 9)
  /-- TRAP (R120) with its vector; words with a service vector decode to the service's own constructor. -/
  | trap (trapvect8 : BitVec 8)
  /-- TRAP x20, the GETC service (R121). -/
  | getc
  /-- TRAP x21, the OUT service (R122). -/
  | out
  /-- TRAP x22, the PUTS service (R123). -/
  | puts
  /-- TRAP x23, the IN service (R124). -/
  | inp
  /-- TRAP x24, the PUTSP service (R125). -/
  | putsp
  /-- TRAP x25, the HALT service (R126). -/
  | halt
  deriving DecidableEq, Repr

end Sys2Proof
end

