-- ==== Sys2Proof/WellFormed.lean ====
section
/-! DEFINITION. Which terms of `Instr` an instruction word can decode to. The field widths are in the
types, so the one check left is that a service vector is written as its service (R59, log entry 12). -/

namespace Sys2Proof

/-- The six vectors 0x20 to 0x25 that select a service (R59). -/
def isServiceVector (v : BitVec 8) : Bool := decide (0x20 ≤ v.toNat) && decide (v.toNat ≤ 0x25)

/-- Well-formedness of a decoded instruction: `trap` only with a vector outside the closed set (R59). -/
def Instr.wellFormed : Instr → Bool
  | .trap v => !isServiceVector v
  | .br _ _ | .addReg _ _ _ | .addImm _ _ _ | .ld _ _ | .st _ _ | .jsr _ | .jsrr _ | .andReg _ _ _
  | .andImm _ _ _ | .ldr _ _ _ | .str _ _ _ | .rti | .not _ _ | .ldi _ _ | .sti _ _ | .jmp _ | .res
  | .lea _ _ | .getc | .out | .puts | .inp | .putsp | .halt => true

end Sys2Proof
end

