-- ==== Sys2Proof/Decode.lean ====
section
/-! DEFINITION. The decoder, a total function of the instruction word (30_encoding.md R51, R52, R56), and
after it the encoder, from the same formats (R55, R61). No word is rejected: R51 makes decoding total. -/

namespace Sys2Proof

/-- The sixteen opcode tags (R56). -/
inductive Opcode where
  | br | add | ld | st | jsr | and | ldr | str | rti | not | ldi | sti | jmp | res | lea | trap
  deriving DecidableEq, Repr

/-- The opcode map: the tag that bits[15:12] select (R56, numbers by decision D1; log entry 10). -/
def opcodeTag (n : BitVec 4) : Opcode :=
  match n.toNat with
  | 0x0 => .br
  | 0x1 => .add
  | 0x2 => .ld
  | 0x3 => .st
  | 0x4 => .jsr
  | 0x5 => .and
  | 0x6 => .ldr
  | 0x7 => .str
  | 0x8 => .rti
  | 0x9 => .not
  | 0xA => .ldi
  | 0xB => .sti
  | 0xC => .jmp
  | 0xD => .res
  | 0xE => .lea
  | _ => .trap

/-- The decoder's outputs (R52): every field is defined for every word, each opcode uses some. The signed
fields are raw here and sign-extended where they are used (R51, R54). -/
structure Fields where
  opcode : Opcode
  dr : Reg
  sr1 : Reg
  immflag : Bool
  sr2 : Reg
  imm5 : BitVec 5
  off6 : BitVec 6
  off9 : BitVec 9
  off11 : BitVec 11
  longflag : Bool
  nzp : BitVec 3
  trapvect8 : BitVec 8
  deriving DecidableEq, Repr

/-- The field positions (R52; D2 to D5 for those the source does not give, log entry 10). -/
def decodeFields (ir : Word) : Fields where
  opcode := opcodeTag (ir.extractLsb' 12 4)
  dr := ir.extractLsb' 9 3
  sr1 := ir.extractLsb' 6 3
  immflag := ir.getLsbD 5
  sr2 := ir.extractLsb' 0 3
  imm5 := ir.extractLsb' 0 5
  off6 := ir.extractLsb' 0 6
  off9 := ir.extractLsb' 0 9
  off11 := ir.extractLsb' 0 11
  longflag := ir.getLsbD 11
  nzp := ir.extractLsb' 9 3
  trapvect8 := ir.extractLsb' 0 8

/-- The TRAP opcode's instruction: the service of a defined vector, `trap` for the others (R59, R120). -/
def trapInstr (v : BitVec 8) : Instr :=
  match v.toNat with
  | 0x20 => .getc
  | 0x21 => .out
  | 0x22 => .puts
  | 0x23 => .inp
  | 0x24 => .putsp
  | 0x25 => .halt
  | _ => .trap v

/-- The instruction that the decoder's outputs name: within an opcode, immflag selects the mode of ADD and
AND, longflag JSR or JSRR, and the vector the service; no other bit selects anything (R56). -/
def instrOfFields (f : Fields) : Instr :=
  match f.opcode with
  | .br => .br f.nzp f.off9
  | .add => if f.immflag then .addImm f.dr f.sr1 f.imm5 else .addReg f.dr f.sr1 f.sr2
  | .ld => .ld f.dr f.off9
  | .st => .st f.dr f.off9
  | .jsr => if f.longflag then .jsr f.off11 else .jsrr f.sr1
  | .and => if f.immflag then .andImm f.dr f.sr1 f.imm5 else .andReg f.dr f.sr1 f.sr2
  | .ldr => .ldr f.dr f.sr1 f.off6
  | .str => .str f.dr f.sr1 f.off6
  | .rti => .rti
  | .not => .not f.dr f.sr1
  | .ldi => .ldi f.dr f.off9
  | .sti => .sti f.dr f.off9
  | .jmp => .jmp f.sr1
  | .res => .res
  | .lea => .lea f.dr f.off9
  | .trap => trapInstr f.trapvect8

/-- The decoder: pure and total (R51). -/
def decode (ir : Word) : Instr := instrOfFields (decodeFields ir)

/-- The instruction the decoder reads from a table row's `nbits` low bits `w`; an instruction is one word
(R50), so a row of more than 16 bits is none of this machine's. -/
def decodeTableWord (nbits w : Nat) : Option Instr :=
  if nbits ≤ 16 then some (decode (BitVec.ofNat 16 w)) else none

/-- The word of an instruction (formats of R55): unused bits are written 0, but NOT's bits[5:0] are 111111,
the assembler's convention (R61; log entry 16). -/
def encode : Instr → Word
  | .br nzp off9 => 0x0#4 ++ nzp ++ off9
  | .addReg dr sr1 sr2 => 0x1#4 ++ dr ++ sr1 ++ 0b000#3 ++ sr2
  | .addImm dr sr1 imm5 => 0x1#4 ++ dr ++ sr1 ++ 1#1 ++ imm5
  | .ld dr off9 => 0x2#4 ++ dr ++ off9
  | .st sr off9 => 0x3#4 ++ sr ++ off9
  | .jsr off11 => 0x4#4 ++ 1#1 ++ off11
  | .jsrr baseR => 0x4#4 ++ 0b000#3 ++ baseR ++ 0#6
  | .andReg dr sr1 sr2 => 0x5#4 ++ dr ++ sr1 ++ 0b000#3 ++ sr2
  | .andImm dr sr1 imm5 => 0x5#4 ++ dr ++ sr1 ++ 1#1 ++ imm5
  | .ldr dr baseR off6 => 0x6#4 ++ dr ++ baseR ++ off6
  | .str sr baseR off6 => 0x7#4 ++ sr ++ baseR ++ off6
  | .rti => 0x8#4 ++ 0#12
  | .not dr sr1 => 0x9#4 ++ dr ++ sr1 ++ 0b111111#6
  | .ldi dr off9 => 0xA#4 ++ dr ++ off9
  | .sti sr off9 => 0xB#4 ++ sr ++ off9
  | .jmp baseR => 0xC#4 ++ 0b000#3 ++ baseR ++ 0#6
  | .res => 0xD#4 ++ 0#12
  | .lea dr off9 => 0xE#4 ++ dr ++ off9
  | .trap v => 0xF#4 ++ 0#4 ++ v
  | .getc => 0xF020#16
  | .out => 0xF021#16
  | .puts => 0xF022#16
  | .inp => 0xF023#16
  | .putsp => 0xF024#16
  | .halt => 0xF025#16

/-- The bits of an instruction's word that its format leaves unused (R58), as a mask. -/
def ignoredBits : Instr → Word
  | .addReg _ _ _ | .andReg _ _ _ => 0x0018#16
  | .not _ _ => 0x003F#16
  | .jmp _ => 0x0E3F#16
  | .jsrr _ => 0x063F#16
  | .rti | .res => 0x0FFF#16
  | .trap _ | .getc | .out | .puts | .inp | .putsp | .halt => 0x0F00#16
  | .br _ _ | .addImm _ _ _ | .ld _ _ | .st _ _ | .jsr _ | .andImm _ _ _ | .ldr _ _ _ | .str _ _ _
  | .ldi _ _ | .sti _ _ | .lea _ _ => 0x0000#16

/-- The opcode tag of an instruction (R56). -/
def Instr.opcode : Instr → Opcode
  | .br _ _ => .br
  | .addReg _ _ _ | .addImm _ _ _ => .add
  | .ld _ _ => .ld
  | .st _ _ => .st
  | .jsr _ | .jsrr _ => .jsr
  | .andReg _ _ _ | .andImm _ _ _ => .and
  | .ldr _ _ _ => .ldr
  | .str _ _ _ => .str
  | .rti => .rti
  | .not _ _ => .not
  | .ldi _ _ => .ldi
  | .sti _ _ => .sti
  | .jmp _ => .jmp
  | .res => .res
  | .lea _ _ => .lea
  | .trap _ | .getc | .out | .puts | .inp | .putsp | .halt => .trap

/-- A row of the opcode table: the words `w` with `w AND mask = pattern` are the row's (R56). -/
structure TableRow where
  mnemonic : String
  pattern : Word
  mask : Word
  deriving DecidableEq, Repr

/-- Whether a word belongs to a row. -/
def TableRow.matches (r : TableRow) (w : Word) : Bool := w &&& r.mask == r.pattern

/-- The table's first nineteen rows, which partition the words (R56, opcode_table.json). -/
def opcodeRows : List TableRow :=
  [⟨"BR", 0x0000, 0xF000⟩, ⟨"ADD", 0x1000, 0xF020⟩, ⟨"ADD", 0x1020, 0xF020⟩, ⟨"LD", 0x2000, 0xF000⟩,
   ⟨"ST", 0x3000, 0xF000⟩, ⟨"JSR", 0x4800, 0xF800⟩, ⟨"JSRR", 0x4000, 0xF800⟩, ⟨"AND", 0x5000, 0xF020⟩,
   ⟨"AND", 0x5020, 0xF020⟩, ⟨"LDR", 0x6000, 0xF000⟩, ⟨"STR", 0x7000, 0xF000⟩, ⟨"RTI", 0x8000, 0xF000⟩,
   ⟨"NOT", 0x9000, 0xF000⟩, ⟨"LDI", 0xA000, 0xF000⟩, ⟨"STI", 0xB000, 0xF000⟩] ++
  [⟨"JMP", 0xC000, 0xF000⟩, ⟨"RES", 0xD000, 0xF000⟩, ⟨"LEA", 0xE000, 0xF000⟩, ⟨"TRAP", 0xF000, 0xF000⟩]

/-- The table's last six rows, subsets of the TRAP row (R56). -/
def serviceRows : List TableRow :=
  [⟨"GETC", 0xF020, 0xF0FF⟩, ⟨"OUT", 0xF021, 0xF0FF⟩, ⟨"PUTS", 0xF022, 0xF0FF⟩, ⟨"IN", 0xF023, 0xF0FF⟩,
   ⟨"PUTSP", 0xF024, 0xF0FF⟩, ⟨"HALT", 0xF025, 0xF0FF⟩]

/-- The row of an instruction, by its mnemonic and, for ADD and AND, its mode. -/
def Instr.row : Instr → TableRow
  | .br _ _ => ⟨"BR", 0x0000, 0xF000⟩
  | .addReg _ _ _ => ⟨"ADD", 0x1000, 0xF020⟩
  | .addImm _ _ _ => ⟨"ADD", 0x1020, 0xF020⟩
  | .ld _ _ => ⟨"LD", 0x2000, 0xF000⟩
  | .st _ _ => ⟨"ST", 0x3000, 0xF000⟩
  | .jsr _ => ⟨"JSR", 0x4800, 0xF800⟩
  | .jsrr _ => ⟨"JSRR", 0x4000, 0xF800⟩
  | .andReg _ _ _ => ⟨"AND", 0x5000, 0xF020⟩
  | .andImm _ _ _ => ⟨"AND", 0x5020, 0xF020⟩
  | .ldr _ _ _ => ⟨"LDR", 0x6000, 0xF000⟩
  | .str _ _ _ => ⟨"STR", 0x7000, 0xF000⟩
  | .rti => ⟨"RTI", 0x8000, 0xF000⟩
  | .not _ _ => ⟨"NOT", 0x9000, 0xF000⟩
  | .ldi _ _ => ⟨"LDI", 0xA000, 0xF000⟩
  | .sti _ _ => ⟨"STI", 0xB000, 0xF000⟩
  | .jmp _ => ⟨"JMP", 0xC000, 0xF000⟩
  | .res => ⟨"RES", 0xD000, 0xF000⟩
  | .lea _ _ => ⟨"LEA", 0xE000, 0xF000⟩
  | .trap _ => ⟨"TRAP", 0xF000, 0xF000⟩
  | .getc => ⟨"GETC", 0xF020, 0xF0FF⟩
  | .out => ⟨"OUT", 0xF021, 0xF0FF⟩
  | .puts => ⟨"PUTS", 0xF022, 0xF0FF⟩
  | .inp => ⟨"IN", 0xF023, 0xF0FF⟩
  | .putsp => ⟨"PUTSP", 0xF024, 0xF0FF⟩
  | .halt => ⟨"HALT", 0xF025, 0xF0FF⟩

end Sys2Proof
end

