-- ==== Sys2Proof/Machine/Trap.lean ====
section
/-! DEFINITION. TRAP, the six trap services and the reserved opcodes (45_trap_reserved.md), and which fault an
instruction raises (60_exceptions.md R140). -/

namespace Sys2Proof.Machine

/-- The loop of PUTS and PUTSP: read the word at `a`, stop at a zero word, else emit the word's characters and go
on at `a + 1` mod 2^16 (R123, R125). With the state it gives the address to go on at, if `fuel` words have been
emitted and the zero word has not come. -/
def stringLoop (chars : Word → List Byte) : Nat → Word → State → Option Word × State
  | 0, a, s => (some a, s)
  | fuel + 1, a, s =>
    if (memRead a s).1 = 0x0000#16 then (none, (memRead a s).2)
    else stringLoop chars fuel (a + 1) (emit (chars (memRead a s).1) (memRead a s).2)

/-- What PUTS emits of a word: bits[7:0] (R123, D20). -/
def putsChars (w : Word) : List Byte := [lowByte w]

/-- What PUTSP emits of a word: bits[7:0], then bits[15:8] if nonzero (R125, D21). -/
def putspChars (w : Word) : List Byte :=
  if highByte w = 0x00#8 then [lowByte w] else [lowByte w, highByte w]

/-- What a string service emits of a word. -/
def stringChars : StringKind → Word → List Byte
  | .puts => putsChars
  | .putsp => putspChars

/-- The words of one model step of a string service: a whole circle of the addresses (log entry 7). -/
def stringLap : Nat := 65536

/-- A string service from the address `a` on (R123, R125). A loop that a whole circle of the addresses has not ended is
not complete and goes on in the next step of the model, for ever if no zero word comes (D20, U13; log entry 7). -/
def stringService (k : StringKind) (a : Word) (s : State) : State :=
  { (stringLoop (stringChars k) stringLap a { s with serving := none }).2 with
    serving := (stringLoop (stringChars k) stringLap a { s with serving := none }).1.map (.string k) }

/-- The GETC service (R121). -/
def serviceGetc (s : State) : State := awaitChar .getc s

/-- The OUT service (R122). -/
def serviceOut (s : State) : State := emit [lowByte (s.reg 0)] s

/-- The IN service (R124): the prompt is emitted before the wait. -/
def serviceIn (s : State) : State := awaitChar .inp (emit Config.inPrompt s)

/-- The HALT service (R126). -/
def serviceHalt (s : State) : State := { emit Config.haltMsg s with run := .halted }

/-- The PUTS and PUTSP services: the string at R0 (R123, R125). -/
def serviceString (k : StringKind) (s : State) : State := stringService k (s.reg 0) s

/-- A service that is not complete goes on: one more consultation of the host (R77), or one more circle of the string
(R123, R125). -/
def continueService : Service → State → State
  | .char k, s => awaitChar k s
  | .string k a, s => stringService k a s

/-- GETC, TRAP x20 (R121). -/
def execGetc (s : State) : Result := .next (serviceGetc s)

/-- OUT, TRAP x21 (R122). -/
def execOut (s : State) : Result := .next (serviceOut s)

/-- PUTS, TRAP x22 (R123). -/
def execPuts (s : State) : Result := .next (serviceString .puts s)

/-- IN, TRAP x23 (R124). -/
def execIn (s : State) : Result := .next (serviceIn s)

/-- PUTSP, TRAP x24 (R125). -/
def execPutsp (s : State) : Result := .next (serviceString .putsp s)

/-- HALT, TRAP x25 (R126). -/
def execHalt (s : State) : Result := .next (serviceHalt s)

/-- TRAP (R120): the service of a defined vector, and the fault of every other (R127). -/
def execTrap (v : BitVec 8) (s : State) : Result :=
  match v.toNat with
  | 0x20 => .next (serviceGetc s)
  | 0x21 => .next (serviceOut s)
  | 0x22 => .next (serviceString .puts s)
  | 0x23 => .next (serviceIn s)
  | 0x24 => .next (serviceString .putsp s)
  | 0x25 => .next (serviceHalt s)
  | _ => .next (raise (.unknownTrapVector v) s)

/-- RTI (R128). -/
def execRti (s : State) : Result := .next (raise (.reservedOpcode 0x8) s)

/-- RES (R129). -/
def execRes (s : State) : Result := .next (raise (.reservedOpcode 0xD) s)

/-- The fault an instruction raises, if any (R140): it depends on the one word fetched alone (R144). -/
def faultOf : Instr → Option FaultCause
  | .rti => some (.reservedOpcode 0x8)
  | .res => some (.reservedOpcode 0xD)
  | .trap v => if isServiceVector v then none else some (.unknownTrapVector v)
  | .br _ _ | .addReg _ _ _ | .addImm _ _ _ | .ld _ _ | .st _ _ | .jsr _ | .jsrr _ | .andReg _ _ _
  | .andImm _ _ _ | .ldr _ _ _ | .str _ _ _ | .not _ _ | .ldi _ _ | .sti _ _ | .jmp _
  | .lea _ _ | .getc | .out | .puts | .inp | .putsp | .halt => none

/-- R140's information column, of a machine in Faulted: the cause, and the faulting word's address `pc - 1`. -/
def faultInfo (s : State) : Option (FaultCause × Word) :=
  if s.run = .faulted then (faultOf (decode (s.peek (s.pc - 1)))).map (fun c => (c, s.pc - 1)) else none

end Sys2Proof.Machine
end

