-- ==== Sys2Proof/Machine/Step.lean ====
section
/-! DEFINITION. One step of the machine (40_fetch_step.md): fetch, increment, decode, execute; the going on of a service
that is not complete; and the absence of steps once the run has ended (R75). -/

namespace Sys2Proof.Machine

/-- The step. A Running core fetches and executes one instruction, or, inside a TRAP step that is not complete, goes on
with its service (R77, R123; log entries 5 and 7). There is no step in Halted or Faulted (R75; log entry 6). -/
def step (s : State) : Host.Outcome State Fault Refusal :=
  match s.run with
  | .halted => .fault .noStepHalted
  | .faulted => .fault .noStepFaulted
  | .running =>
    match s.serving with
    | some v => .next (continueService v s)
    | none => exec (decode (fetch s).1) (fetch s).2

/-- `s` with the instruction word `w` where `step` fetches next; an instruction is one word (R50). -/
def State.withFetchWord (s : State) (_nbits w : Nat) : State := s.withFetch (BitVec.ofNat 16 w)

end Sys2Proof.Machine
end

