-- ==== Sys2Proof/Safety.lean ====
section
/-! DEFINITION. The terms claims use: the invariant of the machine, what an instruction may write, read and change,
the string services as a relation, and the completion of a service. -/

namespace Sys2Proof.Machine

/-- The four values `cond` takes (R13). -/
abbrev legalCond (c : BitVec 3) : Prop := c = 0b000#3 ∨ c = 0b001#3 ∨ c = 0b010#3 ∨ c = 0b100#3

/-- The machine's invariant: memory is canonical, the flags are legal (R13), and only a Running core
is inside a service (R77). -/
abbrev State.Inv (s : State) : Prop :=
  s.mem.wf ∧ legalCond s.cond ∧ (s.serving ≠ none → s.run = .running)

/-- Sign extension of one width, as R53 writes it and as the signed number it stands for. -/
abbrev sextRule (n : Nat) : Prop :=
  ∀ v : BitVec n,
    (sext v).toNat = (if v.toNat < 2 ^ (n - 1) then v.toNat else v.toNat + (65536 - 2 ^ n)) ∧
    (sext v).toInt = (if v.toNat < 2 ^ (n - 1) then (v.toNat : Int) else (v.toNat : Int) - 2 ^ n) ∧
    -(2 ^ (n - 1) : Int) ≤ (sext v).toInt ∧ (sext v).toInt ≤ 2 ^ (n - 1) - 1

/-- The seven instructions marked "Flags updated: yes" (R14), in their nine forms. -/
def setsCond : Instr → Bool
  | .addReg _ _ _ | .addImm _ _ _ | .andReg _ _ _ | .andImm _ _ _ | .not _ _ | .ld _ _ | .ldi _ _ | .ldr _ _ _
  | .lea _ _ => true
  | .br _ _ | .st _ _ | .sti _ _ | .str _ _ _ | .jmp _ | .jsr _ | .jsrr _ | .trap _ | .getc | .out | .puts | .inp
  | .putsp | .halt | .rti | .res => false

/-- The general register an instruction writes (table under R11); GETC and IN write R0 when their character comes. -/
def destReg : Instr → Option Reg
  | .addReg dr _ _ | .addImm dr _ _ | .andReg dr _ _ | .andImm dr _ _ | .not dr _ | .ld dr _ | .ldi dr _ | .ldr dr _ _
  | .lea dr _ => some dr
  | .jsr _ | .jsrr _ => some 7
  | .getc | .inp => some 0
  | .trap v => if v = 0x20#8 ∨ v = 0x23#8 then some 0 else none
  | .br _ _ | .st _ _ | .sti _ _ | .str _ _ _ | .jmp _ | .out | .puts | .putsp | .halt | .rti | .res => none

/-- The instructions that write pc beyond its increment (R12). -/
def writesPc : Instr → Bool
  | .br _ _ | .jmp _ | .jsr _ | .jsrr _ => true
  | .addReg _ _ _ | .addImm _ _ _ | .andReg _ _ _ | .andImm _ _ _ | .not _ _ | .ld _ _ | .ldi _ _ | .ldr _ _ _
  | .lea _ _ | .st _ _ | .sti _ _ | .str _ _ _ | .trap _ | .getc | .out | .puts | .inp | .putsp | .halt | .rti
  | .res => false

/-- The word address an instruction stores to (R100 to R102), computed as its meaning computes it. -/
def storeAddr (i : Instr) (s : State) : Option Word :=
  match i with
  | .st _ off9 => some (pcRel s off9)
  | .sti _ off9 => some (indirect s off9).1
  | .str _ baseR off6 => some (baseOff s baseR off6)
  | _ => none

/-- Whether an instruction may read KBDR, and so poll the keyboard (R34, D16): by a data or pointer read at that
address, or by reading a string. -/
def mayPoll (i : Instr) (s : State) : Prop :=
  match i with
  | .ld _ off9 => pcRel s off9 = kbPollAddr
  | .ldi _ off9 => pcRel s off9 = kbPollAddr ∨ (indirect s off9).1 = kbPollAddr
  | .ldr _ baseR off6 => baseOff s baseR off6 = kbPollAddr
  | .sti _ off9 => pcRel s off9 = kbPollAddr
  | .puts | .putsp => True
  | .trap v => v = 0x22#8 ∨ v = 0x24#8
  | _ => False

/-- Whether an instruction takes from INPUT as a service (R130). -/
def takesChar : Instr → Prop
  | .getc | .inp => True
  | .trap v => v = 0x20#8 ∨ v = 0x23#8
  | _ => False

/-- Whether an instruction is, or calls, a service that one step of the model may leave incomplete (R77, R123, R125). -/
def longService : Instr → Prop
  | .getc | .inp | .puts | .putsp => True
  | .trap v => v = 0x20#8 ∨ v = 0x22#8 ∨ v = 0x23#8 ∨ v = 0x24#8
  | _ => False

/-- The host's answer to the consultation that follows `k` others (R16). -/
def HostInput.answer (h : HostInput) (k : Nat) : Option Byte :=
  match h.answers[k]? with
  | some a => a
  | none => Config.hostAnswer h.host (h.asked + (k - h.answers.length))

/-- Whether an instruction is, or calls, one of the five services that append to OUT (R130). -/
def emits : Instr → Bool
  | .out | .puts | .inp | .putsp | .halt => true
  | .trap v => v != 0x20#8 && isServiceVector v
  | .br _ _ | .addReg _ _ _ | .addImm _ _ _ | .andReg _ _ _ | .andImm _ _ _ | .not _ _ | .ld _ _ | .ldi _ _
  | .ldr _ _ _ | .lea _ _ | .st _ _ | .sti _ _ | .str _ _ _ | .jmp _ | .jsr _ | .jsrr _ | .getc | .rti
  | .res => false

/-- The outcome with the flags of its next state set aside. -/
def forgetCond : Result → Result
  | .next t => .next { t with cond := 0b000#3 }
  | .fault f => .fault f
  | .refused r => .refused r

/-- The state `t` differs from `s` at most in general registers, `cond`, `pc` and memory. -/
abbrev sameHostSide (s t : State) : Prop :=
  t.run = s.run ∧ t.serving = s.serving ∧ t.input = s.input ∧ t.out = s.out

/-- Every word of memory reads the same. -/
abbrev sameMemory (s t : State) : Prop := ∀ a, t.peek a = s.peek a

/-- Every general register reads the same. -/
abbrev sameRegs (s t : State) : Prop := ∀ q, t.reg q = s.reg q

/-- What a flag-updating instruction leaves when it writes `v` to DR from the state `s`: DR holds `v`, `cond` is the
flag of `v` as R74 writes it, and everything else is as in `s`. -/
abbrev wroteResult (dr : Reg) (v : Word) (s t : State) : Prop :=
  t.reg dr = v ∧ (∀ q, q ≠ dr → t.reg q = s.reg q) ∧
  t.cond = (if v = 0x0000#16 then 0b010#3 else if v.getLsbD 15 then 0b100#3 else 0b001#3) ∧
  t.pc = s.pc ∧ sameMemory s t ∧ sameHostSide s t

/-- What a store of `v` at `a` leaves from the state `s`: that word, and nothing else, changed. -/
abbrev wroteMemory (a v : Word) (s t : State) : Prop :=
  t.peek a = v ∧ (∀ b, b ≠ a → t.peek b = s.peek b) ∧ sameRegs s t ∧ t.cond = s.cond ∧ t.pc = s.pc ∧ sameHostSide s t

/-- What a control transfer leaves: pc holds `target`, R7 holds `ret` if there is one, and nothing else changed. -/
abbrev wentTo (target : Word) (ret : Option Word) (s t : State) : Prop :=
  t.pc = target ∧ (∀ q, t.reg q = if q = 7 then ret.getD (s.reg 7) else s.reg q) ∧ t.cond = s.cond ∧
  sameMemory s t ∧ sameHostSide s t

/-- The loop of PUTS and PUTSP as the rules write it, with no bound (R123, R125): from address `a` and state `s` it
emits `n` words and ends in `t`. -/
inductive StringRun (chars : Word → List Byte) : Nat → Word → State → State → Prop where
  /-- A zero word exits the loop; the terminator is not emitted. -/
  | stop (a : Word) (s : State) (h : (memRead a s).1 = 0x0000#16) : StringRun chars 0 a s (memRead a s).2
  /-- Any other word is emitted, and the loop goes on at the next address. -/
  | more (n : Nat) (a : Word) (s t : State) (h : (memRead a s).1 ≠ 0x0000#16)
      (rest : StringRun chars n (a + 1) (emit (chars (memRead a s).1) (memRead a s).2) t) :
      StringRun chars (n + 1) a s t

/-- The TRAP step that `s` is inside of completes in `u`, after some number of steps of the model (none if it is
complete in `s`). -/
inductive Completes : State → State → Prop where
  /-- No service is left to go on. -/
  | done (s : State) (h : s.serving = none) : Completes s s
  /-- One step of the model goes on with the service. -/
  | more (s t u : State) (h : s.serving ≠ none) (hs : step s = .next t) (rest : Completes t u) : Completes s u

/-- What a circle of the addresses without a zero word leaves of a string service that came by the address `a`, with the
character `c` for its poll: it goes on at `a`, has appended at least one character a word to OUT and taken one answer
of the host, KBSR and KBDR hold what the poll writes, and nothing else of the machine changed. -/
abbrev circledOnce (k : StringKind) (a : Word) (c : Byte) (s t : State) : Prop :=
  t.serving = some (.string k a) ∧
  (∀ b, t.peek b = if b = 0xFE00#16 then 0x8000#16 else if b = 0xFE02#16 then c.zeroExtend 16 else s.peek b) ∧
  (∀ b, t.peek b ≠ 0x0000#16) ∧ t.input = s.input.consult.2 ∧ (∃ bs, t.out = s.out ++ bs ∧ 65536 ≤ bs.length) ∧
  t.run = s.run ∧ t.pc = s.pc ∧ t.cond = s.cond ∧ sameRegs s t

/-- The instruction of a string service. -/
def stringInstr : StringKind → Instr
  | .puts => .puts
  | .putsp => .putsp

end Sys2Proof.Machine
end

