-- ==== Sys2Proof/Certificates/Slice0/Obligations.lean ====
section
/-! DEFINITION. The statements for the provers. Each says, in its docstring, what of the spec it formalises and where
it rests on a decision of the spec's own (D<n> of 92_eei_decisions.md) or on a log entry of the model. -/

open Sys2Proof Sys2Proof.Machine

/-! ## Encoding -/

/-- Decode after encode gives the instruction back, for every well-formed instruction and every operand (R52, R55,
R56; the positions and numbers are D1 to D5's, log entry 10). -/
def Obligations.DecodeEncodeRoundTrip : Prop :=
  ∀ i : Instr, i.wellFormed = true → decode (encode i) = i

/-- Every word decodes to a well-formed instruction, whose encoding agrees with the word in every bit that the format
does not ignore: the decoder drops no other bit (R51, R58; D7). -/
def Obligations.EncodeDecodeKeepsEveryUsedBit : Prop :=
  ∀ w : Word, (decode w).wellFormed = true ∧ (encode (decode w) ^^^ w) &&& ~~~(ignoredBits (decode w)) = 0x0000#16

/-- Flipping any set of a format's unused bits leaves the decoded instruction the same (R58; D7). -/
def Obligations.IgnoredBitsSelectNothing : Prop :=
  ∀ w m : Word, m &&& ~~~(ignoredBits (decode w)) = 0x0000#16 → decode (w ^^^ m) = decode w

/-- The table's first nineteen rows partition the words, and a word decodes to an instruction of a row it matches
(R56; D1). -/
def Obligations.OpcodeRowsPartitionTheWords : Prop :=
  ∀ w : Word, (opcodeRows.filter (fun r => r.matches w)).length = 1 ∧ (decode w).row.matches w = true ∧
    ((decode w).row ∈ opcodeRows ∨ (decode w).row ∈ serviceRows)

/-- Words of the spec's test vectors (95_test_vectors.md part 2) decode to the instructions they stand for, among them
words with unused bits set. -/
def Obligations.SpecVectorWordsDecode : Prop :=
  decode 0x1042#16 = .addReg 0 1 2 ∧ decode 0x105A#16 = .addReg 0 1 2 ∧ decode 0x1070#16 = .addImm 0 1 0x10 ∧
  decode 0x5241#16 = .andReg 1 1 1 ∧ decode 0x56E0#16 = .andImm 3 3 0 ∧ decode 0x9040#16 = .not 0 1 ∧
  decode 0x21FF#16 = .ld 0 0x1FF ∧ decode 0xA000#16 = .ldi 0 0 ∧ decode 0x6060#16 = .ldr 0 1 0x20 ∧
  decode 0xE201#16 = .lea 1 1 ∧ decode 0x3E00#16 = .st 7 0 ∧ decode 0xB000#16 = .sti 0 0 ∧
  decode 0x7043#16 = .str 0 1 3 ∧ decode 0x0C0A#16 = .br 0b110 0x00A ∧ decode 0xCEBF#16 = .jmp 2 ∧
  decode 0x4BFF#16 = .jsr 0x3FF ∧ decode 0x4680#16 = .jsrr 2 ∧ decode 0xF026#16 = .trap 0x26 ∧
  decode 0xFF25#16 = .halt ∧ decode 0xF023#16 = .inp ∧ decode 0x8FFF#16 = .rti ∧ decode 0xDABC#16 = .res

/-- The decoder's fields as arithmetic on the word (the table of R52; D2 to D5 for the positions the source does not
give). -/
def Obligations.DecoderFieldPositions : Prop :=
  ∀ w : Word, (decodeFields w).opcode = opcodeTag (BitVec.ofNat 4 (w.toNat / 4096)) ∧
    (decodeFields w).dr.toNat = w.toNat / 512 % 8 ∧ (decodeFields w).sr1.toNat = w.toNat / 64 % 8 ∧
    (decodeFields w).immflag = decide (w.toNat / 32 % 2 = 1) ∧ (decodeFields w).sr2.toNat = w.toNat % 8 ∧
    (decodeFields w).imm5.toNat = w.toNat % 32 ∧ (decodeFields w).off6.toNat = w.toNat % 64 ∧
    (decodeFields w).off9.toNat = w.toNat % 512 ∧ (decodeFields w).off11.toNat = w.toNat % 2048 ∧
    (decodeFields w).longflag = decide (w.toNat / 2048 % 2 = 1) ∧ (decodeFields w).nzp.toNat = w.toNat / 512 % 8 ∧
    (decodeFields w).trapvect8.toNat = w.toNat % 256

/-- Sign extension at the four widths 5, 6, 9 and 11 (R53). -/
def Obligations.SignExtensionAtTheFourWidths : Prop := sextRule 5 ∧ sextRule 6 ∧ sextRule 9 ∧ sextRule 11

/-- The reserved words are those whose bits[15:12] are 0x8 or 0xD; executing one ends the run in Faulted and changes
nothing else, and no other word raises ReservedOpcode (R57, R128, R129; the numbers are D1's, the effect of a fault is
D22's). -/
def Obligations.OnlyReservedWordsRaiseReservedOpcode : Prop :=
  ∀ (w : Word) (s : State),
    (w.extractLsb' 12 4 = 0x8#4 → exec (decode w) s = .next { s with run := .faulted }) ∧
    (w.extractLsb' 12 4 = 0xD#4 → exec (decode w) s = .next { s with run := .faulted }) ∧
    ∀ op, faultOf (decode w) = some (.reservedOpcode op) ↔ w.extractLsb' 12 4 = op ∧ (op = 0x8#4 ∨ op = 0xD#4)

/-- The trap-vector space: the six defined vectors are their services, and each of the other 250 raises
UnknownTrapVector (R59), which ends the run in Faulted and changes nothing else (R127, R141; D22). That the services are
constructors of their own is the model's choice (log entry 12). -/
def Obligations.TrapVectorsAreAClosedSet : Prop :=
  ∀ (v : BitVec 8) (s : State),
    exec (.trap v) s =
      (if v = 0x20#8 then exec .getc s else if v = 0x21#8 then exec .out s else if v = 0x22#8 then exec .puts s
       else if v = 0x23#8 then exec .inp s else if v = 0x24#8 then exec .putsp s else if v = 0x25#8 then exec .halt s
       else .next { s with run := .faulted }) ∧
    faultOf (.trap v) = (if 0x20 ≤ v.toNat ∧ v.toNat ≤ 0x25 then none else some (.unknownTrapVector v))

/-! ## The step -/

/-- A step of a Running core that is inside no service reads the word at pc, increments pc mod 2^16, decodes the word and
executes it (R70, R71, R72). `serving` is the model's (log entry 5). -/
def Obligations.StepRunsTheDecodedInstruction : Prop :=
  ∀ s : State, s.run = .running → s.serving = none →
    step s = exec (decode (memRead s.pc s).1) { (memRead s.pc s).2 with pc := s.pc + 1 } ∧
    (s.pc + 1).toNat = (s.pc.toNat + 1) % 65536

/-- There is no step in Halted or Faulted, and a step that answers a next state started in Running (R75; that the model
answers a named fault there is its choice, log entry 6). -/
def Obligations.NoStepOnceTheRunHasEnded : Prop :=
  ∀ s : State, (s.run = .halted → step s = .fault .noStepHalted) ∧ (s.run = .faulted → step s = .fault .noStepFaulted) ∧
    ∀ t, step s = .next t → s.run = .running

/-- A core that waits in GETC or IN does nothing but consult the host: with no character nothing changes, with one the
service finishes (R77, R121, R124; that the wait is a state between steps is the model's choice, log entry 5). -/
def Obligations.WaitingCoreOnlyAwaitsItsCharacter : Prop :=
  ∀ (s : State) (k : CharService), s.run = .running → s.serving = some (.char k) →
    (s.input.consult.1 = none → step s = .next { s with input := s.input.consult.2 }) ∧
    ∀ c, s.input.consult.1 = some c → ∃ t, step s = .next t ∧ t.reg 0 = c.zeroExtend 16 ∧
      (∀ q, q ≠ 0 → t.reg q = s.reg q) ∧ t.out = s.out ++ (if k = .inp then [c] else []) ∧ t.serving = none ∧
      t.pc = s.pc ∧ t.cond = s.cond ∧ t.run = s.run ∧ t.mem = s.mem ∧ t.input = s.input.consult.2

/-- Every instruction answers a next state in every state, and a Running core always has a step: no fetch, no memory
access and no operand can stop it (R43, R144), and a wait or a string without end is a core that keeps stepping inside
its service (R77, U8, U13; log entries 5 and 7). -/
def Obligations.RunningCoreAlwaysHasAStep : Prop :=
  (∀ (i : Instr) (s : State), ∃ t, exec i s = .next t) ∧ ∀ s : State, s.run = .running → ∃ t, step s = .next t

/-- Every step keeps the invariant: canonical memory, one of the four flag values (R13), and inside a service only
while Running. The canonical form and `serving` are the model's (log entries 1, 2 and 5). -/
def Obligations.StepKeepsTheInvariant : Prop :=
  ∀ s t : State, s.Inv → step s = .next t → t.Inv

/-- The invariant holds after reset, for every canonical INIT_MEM and every host input, and for State.reset. -/
def Obligations.ResetMeetsTheInvariant : Prop :=
  (∀ (m : Memory) (h : HostInput), m.wf → (State.resetWith m h).Inv) ∧ State.reset.Inv

/-- The reset values (R18, R161; D11, D12, D29), for every INIT_MEM and host input. `serving` none is the model's (log
entry 5), and so are the empty memory and the unlisted host answers of State.reset (log entries 2 and 4). -/
def Obligations.ResetValues : Prop :=
  (∀ (m : Memory) (h : HostInput), (State.resetWith m h).pc = 0x3000#16 ∧
    (∀ i, (State.resetWith m h).reg i = 0x0000#16) ∧ (State.resetWith m h).cond = 0b000#3 ∧
    (State.resetWith m h).run = .running ∧ (State.resetWith m h).out = [] ∧ (State.resetWith m h).mem = m ∧
    (State.resetWith m h).input = h ∧ (State.resetWith m h).serving = none) ∧
  ∃ h : HostInput, State.reset = State.resetWith [] h ∧ h.answers = []

/-- Reset of a machine that has run gives the reset values and writes no memory (R160, D30). Of INPUT the spec says nothing
there: that it is kept, and that the TRAP step in progress is given up, is the model's choice (log entry 14). -/
def Obligations.WarmResetKeepsMemory : Prop :=
  ∀ s : State, s.warmReset.pc = 0x3000#16 ∧ (∀ i, s.warmReset.reg i = 0x0000#16) ∧ s.warmReset.cond = 0b000#3 ∧
    s.warmReset.run = .running ∧ s.warmReset.out = [] ∧ sameMemory s s.warmReset ∧ s.warmReset.input = s.input ∧
    s.warmReset.serving = none

/-! ## Flags and run state -/

/-- The flag-update rule (R74): what setcc writes, that the three cases are exclusive and follow the sign of the
result, and that it is invoked, on the value just written to the destination register, by ADD, AND, NOT, LD, LDI,
LDR, LEA and by nothing else. -/
def Obligations.FlagsFollowTheWrittenResult : Prop :=
  (∀ (v : Word) (s : State), setcc v s =
    { s with cond := if v = 0x0000#16 then 0b010#3 else if v.getLsbD 15 then 0b100#3 else 0b001#3 }) ∧
  (∀ v : Word, (flagOf v = 0b010#3 ↔ v.toInt = 0) ∧ (flagOf v = 0b100#3 ↔ v.toInt < 0) ∧
    (flagOf v = 0b001#3 ↔ 0 < v.toInt)) ∧
  ∀ (i : Instr) (s t : State), exec i s = .next t →
    if setsCond i then ∃ dr, destReg i = some dr ∧ t.cond = flagOf (t.reg dr) else t.cond = s.cond

/-- Before the first flag-updating instruction no BR is taken (R14, R110); every flag-updating instruction leaves exactly
one flag set, and once one is set every step leaves exactly one set (R14; C7). -/
def Obligations.OneFlagOnceAnyIsSet : Prop :=
  (∀ (s : State) (nzp : BitVec 3) (off9 : BitVec 9), s.cond = 0b000#3 → exec (.br nzp off9) s = .next s) ∧
  (∀ (i : Instr) (s t : State), setsCond i = true → exec i s = .next t →
    (t.cond = 0b001#3 ∨ t.cond = 0b010#3 ∨ t.cond = 0b100#3)) ∧
  ∀ s t : State, (s.cond = 0b001#3 ∨ s.cond = 0b010#3 ∨ s.cond = 0b100#3) → step s = .next t →
    (t.cond = 0b001#3 ∨ t.cond = 0b010#3 ∨ t.cond = 0b100#3)

/-- Only BR reads the flags (R14): every other instruction does the same whatever they are, and the flag-updating ones
leave no trace of the old ones. -/
def Obligations.OnlyBranchReadsTheFlags : Prop :=
  ∀ (i : Instr) (s : State) (c : BitVec 3), (∀ nzp off9, i ≠ .br nzp off9) →
    forgetCond (exec i { s with cond := c }) = forgetCond (exec i s) ∧
    (setsCond i = true → exec i { s with cond := c } = exec i s)

/-- The run state becomes Halted only by HALT, Faulted only by a fault, and no instruction raises AddressOutOfRange
(R15, R140, R43). -/
def Obligations.RunStateChangesOnlyByHaltAndFaults : Prop :=
  ∀ (i : Instr) (s t : State), exec i s = .next t →
    t.run = (if i = .halt ∨ i = .trap 0x25 then .halted else if (faultOf i).isSome then .faulted else s.run) ∧
    faultOf i ≠ some .addressOutOfRange

/-- A fault is precise: a step that ends in Faulted has done nothing but the fetch, with its poll if it has one, and the
pc increment; its cause and the faulting word's address are those of R140's table (R140, R141, R145; D22). -/
def Obligations.FaultsArePrecise : Prop :=
  ∀ s t : State, s.run = .running → s.serving = none → step s = .next t → t.run = .faulted →
    t = { (memRead s.pc s).2 with pc := s.pc + 1, run := .faulted } ∧
    ∃ c, faultOf (decode (memRead s.pc s).1) = some c ∧ faultInfo t = some (c, s.pc)

/-! ## ALU -/

/-- ADD, register mode: completion, result, flags and frame (R80, R84). -/
def Obligations.AddRegisterResult : Prop :=
  ∀ (s : State) (dr sr1 sr2 : Reg), ∃ t, exec (.addReg dr sr1 sr2) s = .next t ∧
    wroteResult dr (BitVec.ofNat 16 ((s.reg sr1).toNat + (s.reg sr2).toNat)) s t

/-- ADD, immediate mode (R81, R84). -/
def Obligations.AddImmediateResult : Prop :=
  ∀ (s : State) (dr sr1 : Reg) (imm5 : BitVec 5), ∃ t, exec (.addImm dr sr1 imm5) s = .next t ∧
    wroteResult dr (BitVec.ofNat 16 ((s.reg sr1).toNat + (sext imm5).toNat)) s t

/-- AND, register mode (R82). -/
def Obligations.AndRegisterResult : Prop :=
  ∀ (s : State) (dr sr1 sr2 : Reg), ∃ t v, exec (.andReg dr sr1 sr2) s = .next t ∧ wroteResult dr v s t ∧
    ∀ k, k < 16 → v.getLsbD k = ((s.reg sr1).getLsbD k && (s.reg sr2).getLsbD k)

/-- AND, immediate mode (R83). -/
def Obligations.AndImmediateResult : Prop :=
  ∀ (s : State) (dr sr1 : Reg) (imm5 : BitVec 5), ∃ t v, exec (.andImm dr sr1 imm5) s = .next t ∧
    wroteResult dr v s t ∧ ∀ k, k < 16 → v.getLsbD k = ((s.reg sr1).getLsbD k && (sext imm5).getLsbD k)

/-- NOT: the bitwise complement, which is 65535 - x[SR1] (R85). -/
def Obligations.NotResult : Prop :=
  ∀ (s : State) (dr sr1 : Reg), ∃ t, exec (.not dr sr1) s = .next t ∧
    wroteResult dr (BitVec.ofNat 16 (65535 - (s.reg sr1).toNat)) s t

/-! ## Memory, loads and stores -/

/-- MemRead (R33, R34): plain away from 0xFE02; at 0xFE02 a poll comes first, which latches an available character into
KBDR and sets KBSR, or clears KBSR, and touches no other word (the words written are D15's, log entry 11). -/
def Obligations.MemReadPollsOnlyAtKbdr : Prop :=
  (∀ (s : State) (a : Word), a ≠ 0xFE02#16 → memRead a s = (s.peek a, s)) ∧
  ∀ s : State, s.mem.wf →
    (memRead 0xFE02 s).1 = ((s.input.consult.1.map (·.zeroExtend 16)).getD (s.peek 0xFE02)) ∧
    (∀ b, (memRead 0xFE02 s).2.peek b =
      if b = 0xFE00#16 then (if s.input.consult.1.isSome then 0x8000#16 else 0x0000#16)
      else if b = 0xFE02#16 then (memRead 0xFE02 s).1 else s.peek b) ∧
    (memRead 0xFE02 s).2.input = s.input.consult.2 ∧ sameRegs s (memRead 0xFE02 s).2 ∧
    (memRead 0xFE02 s).2.pc = s.pc ∧ (memRead 0xFE02 s).2.cond = s.cond ∧ (memRead 0xFE02 s).2.run = s.run ∧
    (memRead 0xFE02 s).2.out = s.out

/-- MemWrite is a plain write at every address, the keyboard's included (R35; D14). -/
def Obligations.MemWriteIsPlainEverywhere : Prop :=
  ∀ (s : State) (a v : Word), s.mem.wf → wroteMemory a v s (memWrite a v s)

/-- The three addressing modes, each a sum mod 2^16; none modifies the base register or pc (R94; D10). -/
def Obligations.AddressingModes : Prop :=
  ∀ (s : State) (off9 : BitVec 9) (baseR : Reg) (off6 : BitVec 6),
    (pcRel s off9).toNat = (s.pc.toNat + (sext off9).toNat) % 65536 ∧
    (indirect s off9).1 = (memRead (pcRel s off9) s).1 ∧
    (baseOff s baseR off6).toNat = ((s.reg baseR).toNat + (sext off6).toNat) % 65536 ∧
    (indirect s off9).2.pc = s.pc ∧ sameRegs s (indirect s off9).2

/-- LD: completion, result, flags and frame, on the state its one read leaves (R90). -/
def Obligations.LoadPcRelativeResult : Prop :=
  ∀ (s : State) (dr : Reg) (off9 : BitVec 9), ∃ t, exec (.ld dr off9) s = .next t ∧
    wroteResult dr (memRead (pcRel s off9) s).1 (memRead (pcRel s off9) s).2 t

/-- LDI: the word at the PC-relative address is the data's address, the data is read on the state the pointer's read
leaves, and the flags are the data's (R91). -/
def Obligations.LoadIndirectResult : Prop :=
  ∀ (s : State) (dr : Reg) (off9 : BitVec 9), ∃ t, exec (.ldi dr off9) s = .next t ∧
    wroteResult dr (memRead (memRead (pcRel s off9) s).1 (memRead (pcRel s off9) s).2).1
      (memRead (memRead (pcRel s off9) s).1 (memRead (pcRel s off9) s).2).2 t

/-- LDR (R92). -/
def Obligations.LoadBaseOffsetResult : Prop :=
  ∀ (s : State) (dr baseR : Reg) (off6 : BitVec 6), ∃ t, exec (.ldr dr baseR off6) s = .next t ∧
    wroteResult dr (memRead (baseOff s baseR off6) s).1 (memRead (baseOff s baseR off6) s).2 t

/-- LEA: the address itself, flags from it, and no memory transaction: memory and INPUT are as they were (R93; C2). -/
def Obligations.LoadEffectiveAddressResult : Prop :=
  ∀ (s : State) (dr : Reg) (off9 : BitVec 9), ∃ t, exec (.lea dr off9) s = .next t ∧ t.mem = s.mem ∧
    wroteResult dr (BitVec.ofNat 16 (s.pc.toNat + (sext off9).toNat)) s t

/-- ST: one write at the PC-relative address, and nothing else changed (R100; C2). -/
def Obligations.StorePcRelativeResult : Prop :=
  ∀ (s : State) (sr : Reg) (off9 : BitVec 9), s.mem.wf → ∃ t, exec (.st sr off9) s = .next t ∧
    wroteMemory (pcRel s off9) (s.reg sr) s t

/-- STI: the pointer read, then one write on the state it leaves (R101). -/
def Obligations.StoreIndirectResult : Prop :=
  ∀ (s : State) (sr : Reg) (off9 : BitVec 9), s.mem.wf → ∃ t, exec (.sti sr off9) s = .next t ∧
    wroteMemory (indirect s off9).1 (s.reg sr) (indirect s off9).2 t

/-- STR: one write at base plus offset (R102). -/
def Obligations.StoreBaseOffsetResult : Prop :=
  ∀ (s : State) (sr baseR : Reg) (off6 : BitVec 6), s.mem.wf → ∃ t, exec (.str sr baseR off6) s = .next t ∧
    wroteMemory (baseOff s baseR off6) (s.reg sr) s t

/-- A store to the address of the next instruction is what the next fetch reads, whichever store it is and with no
precaution (R41); at KBDR's address the fetch polls first (R34), so that address is left out. -/
def Obligations.NextFetchSeesTheStore : Prop :=
  ∀ (i : Instr) (s t : State) (sr : Reg), s.mem.wf →
    (∃ off9, i = .st sr off9) ∨ (∃ off9, i = .sti sr off9) ∨ (∃ baseR off6, i = .str sr baseR off6) →
    exec i s = .next t → storeAddr i s = some t.pc → t.pc ≠ 0xFE02#16 → (fetch t).1 = s.reg sr

/-! ## Control transfer -/

/-- BR: the 3-bit AND of mask and flags decides; the target is relative to the incremented pc; nothing else changes
(R110; the mask's position is D4's). -/
def Obligations.BranchResult : Prop :=
  ∀ (s : State) (nzp : BitVec 3) (off9 : BitVec 9), exec (.br nzp off9) s = .next
    { s with pc := if (∃ k, k < 3 ∧ nzp.getLsbD k = true ∧ s.cond.getLsbD k = true)
                   then BitVec.ofNat 16 (s.pc.toNat + (sext off9).toNat) else s.pc }

/-- JMP, through any register (R111). -/
def Obligations.JumpResult : Prop :=
  ∀ (s : State) (baseR : Reg), ∃ t, exec (.jmp baseR) s = .next t ∧ wentTo (s.reg baseR) none s t

/-- JSR: the link in R7, and the PC-relative target (R112). -/
def Obligations.CallPcRelativeResult : Prop :=
  ∀ (s : State) (off11 : BitVec 11), ∃ t, exec (.jsr off11) s = .next t ∧
    wentTo (BitVec.ofNat 16 (s.pc.toNat + (sext off11).toNat)) (some s.pc) s t

/-- JSRR: the link in R7 first, then the base register, so that JSRR R7 goes to the link itself (R113; D8). -/
def Obligations.CallThroughRegisterResult : Prop :=
  ∀ (s : State) (baseR : Reg), ∃ t, exec (.jsrr baseR) s = .next t ∧
    wentTo (if baseR = 7 then s.pc else s.reg baseR) (some s.pc) s t

/-! ## Trap services and reserved opcodes -/

/-- GETC: with a character, R0 is that character zero-extended and nothing is emitted; without one, the core waits and
nothing else changes (R121, R77; D17, D18; the waiting state is log entry 5's). -/
def Obligations.GetcTakesOneCharacter : Prop :=
  ∀ s : State,
    (∀ c, s.input.consult.1 = some c → ∃ t, exec .getc s = .next t ∧ t.reg 0 = c.zeroExtend 16 ∧
      (∀ q, q ≠ 0 → t.reg q = s.reg q) ∧ t.out = s.out ∧ t.input = s.input.consult.2 ∧ t.serving = none ∧
      t.pc = s.pc ∧ t.cond = s.cond ∧ t.run = s.run ∧ t.mem = s.mem) ∧
    (s.input.consult.1 = none →
      exec .getc s = .next { s with input := s.input.consult.2, serving := some (.char .getc) })

/-- OUT: the low byte of R0 is emitted, and nothing else changes (R122; D29). -/
def Obligations.OutEmitsTheLowByte : Prop :=
  ∀ s : State, exec .out s = .next { s with out := s.out ++ [BitVec.ofNat 8 (s.reg 0).toNat] }

/-- PUTS on a string that ends before it meets KBDR: the low byte of each word, in order, the address wrapping past
0xFFFF; the terminator is not emitted, nothing else changes and the step is complete (R123; D20). -/
def Obligations.PutsEmitsTheLowBytes : Prop :=
  ∀ (s : State) (ws : List Word),
    (∀ k w, ws[k]? = some w → s.peek (s.reg 0 + BitVec.ofNat 16 k) = w ∧ w ≠ 0x0000#16) →
    s.peek (s.reg 0 + BitVec.ofNat 16 ws.length) = 0x0000#16 →
    (∀ k, k ≤ ws.length → s.reg 0 + BitVec.ofNat 16 k ≠ 0xFE02#16) →
    exec .puts s = .next
      { s with out := s.out ++ ws.map (fun w => BitVec.ofNat 8 w.toNat), serving := none }

/-- PUTSP on a string that ends before it meets KBDR: of each word the low byte, then the high byte if nonzero (R125;
D21). -/
def Obligations.PutspEmitsBothBytes : Prop :=
  ∀ (s : State) (ws : List Word),
    (∀ k w, ws[k]? = some w → s.peek (s.reg 0 + BitVec.ofNat 16 k) = w ∧ w ≠ 0x0000#16) →
    s.peek (s.reg 0 + BitVec.ofNat 16 ws.length) = 0x0000#16 →
    (∀ k, k ≤ ws.length → s.reg 0 + BitVec.ofNat 16 k ≠ 0xFE02#16) →
    exec .putsp s = .next { s with out := s.out ++ ws.flatMap (fun w =>
      BitVec.ofNat 8 w.toNat :: if w.toNat / 256 = 0 then [] else [BitVec.ofNat 8 (w.toNat / 256)]), serving := none }

/-- PUTS and PUTSP are the rules' loop (R123, R125; D20, U13). A string of fewer than 65536 words ends in the instruction's
own step, in the state in which the loop ends. For every string, the TRAP step completes in a state, after whatever steps
of the model, exactly when the unbounded loop ends in it; so it never completes exactly when the loop never ends. That a
longer string takes several steps of the model is its choice (log entry 7); the host's answers are any (log entry 3). -/
def Obligations.StringServicesRunTheRulesLoop : Prop :=
  ∀ (k : StringKind) (s : State), s.run = .running →
    (∀ n t, n < 65536 → StringRun (stringChars k) n (s.reg 0) { s with serving := none } t →
      exec (stringInstr k) s = .next t) ∧
    (∃ t, exec (stringInstr k) s = .next t ∧
      ∀ u, Completes t u ↔ ∃ n, StringRun (stringChars k) n (s.reg 0) { s with serving := none } u) ∧
    ∀ a, s.serving = some (.string k a) →
      ∀ u, Completes s u ↔ ∃ n, StringRun (stringChars k) n a { s with serving := none } u

/-- With no zero word in memory, and a nonzero character for the poll at KBDR, a circle of the addresses leaves PUTS and
PUTSP inside the service, at the address it came by, with at least one character a word appended to OUT, the poll's words in
KBSR and KBDR (D15, log entry 11), so still no zero word in memory, and nothing else changed: with such characters for
ever, the service never returns (R123, D20, U13; log entries 3 and 7). -/
def Obligations.NoTerminatorKeepsServing : Prop :=
  ∀ (k : StringKind) (s : State) (c : Byte), (∀ b, s.peek b ≠ 0x0000#16) → s.input.consult.1 = some c → c ≠ 0x00#8 →
    (∃ t, exec (stringInstr k) s = .next t ∧ circledOnce k (s.reg 0) c s t) ∧
    ∀ a, s.run = .running → s.serving = some (.string k a) → ∃ t, step s = .next t ∧ circledOnce k a c s t

/-- IN: the prompt, then, with a character, its echo and R0; without one, the core waits with the prompt emitted (R124,
R77; C12; D17 to D19; log entry 5). IN_PROMPT is any byte string (log entry 9). -/
def Obligations.InPromptsThenTakesOneCharacter : Prop :=
  ∀ s : State,
    (∀ c, s.input.consult.1 = some c → ∃ t, exec .inp s = .next t ∧ t.reg 0 = c.zeroExtend 16 ∧
      (∀ q, q ≠ 0 → t.reg q = s.reg q) ∧ t.out = s.out ++ Config.inPrompt ++ [c] ∧ t.input = s.input.consult.2 ∧
      t.serving = none ∧ t.pc = s.pc ∧ t.cond = s.cond ∧ t.run = s.run ∧ t.mem = s.mem) ∧
    (s.input.consult.1 = none → exec .inp s =
      .next { s with out := s.out ++ Config.inPrompt, input := s.input.consult.2, serving := some (.char .inp) })

/-- HALT: the message, then Halted; nothing else changes (R126; D19; log entry 9). -/
def Obligations.HaltEndsTheRun : Prop :=
  ∀ s : State, exec .halt s = .next { s with out := s.out ++ Config.haltMsg, run := .halted }

/-- RTI and RES: Faulted, and nothing else changes (R128, R129, R141; D22). -/
def Obligations.ReservedInstructionsFault : Prop :=
  ∀ s : State, exec .rti s = .next { s with run := .faulted } ∧ exec .res s = .next { s with run := .faulted } ∧
    faultOf .rti = some (.reservedOpcode 0x8) ∧ faultOf .res = some (.reservedOpcode 0xD)

/-- TRAP with a vector outside 0x20 to 0x25: Faulted, and nothing else changes (R127, R141; D22). -/
def Obligations.UnknownTrapVectorFaults : Prop :=
  ∀ (v : BitVec 8) (s : State), v.toNat < 0x20 ∨ 0x25 < v.toNat →
    exec (.trap v) s = .next { s with run := .faulted } ∧ faultOf (.trap v) = some (.unknownTrapVector v)

/-! ## Frames over all instructions -/

/-- No instruction writes a general register but the one the table under R11 names for it (R11, R130). -/
def Obligations.OnlyTheDestinationRegisterIsWritten : Prop :=
  ∀ (i : Instr) (s t : State) (q : Reg), exec i s = .next t → destReg i ≠ some q → t.reg q = s.reg q

/-- Only BR, JMP, JSR and JSRR write pc beyond its increment (R12, R114). -/
def Obligations.OnlyControlTransfersWritePc : Prop :=
  ∀ (i : Instr) (s t : State), exec i s = .next t → writesPc i = false → t.pc = s.pc

/-- No instruction changes a word of memory but the one it stores to and, where it may read KBDR, the two keyboard words
(R34, R35, R130). -/
def Obligations.OnlyTheStoredWordChanges : Prop :=
  ∀ (i : Instr) (s t : State) (b : Word), s.mem.wf → exec i s = .next t → storeAddr i s ≠ some b →
    (mayPoll i s → b ≠ 0xFE00#16 ∧ b ≠ 0xFE02#16) → t.peek b = s.peek b

/-- OUT only grows, and only by the five services that emit (R16, R130; D29). -/
def Obligations.OutputOnlyGrows : Prop :=
  ∀ (i : Instr) (s t : State), exec i s = .next t → ∃ bs, t.out = s.out ++ bs ∧ (emits i = false → bs = [])

/-- INPUT is only consumed, from the front, and only by a poll or by GETC and IN (R16, R34, R130; D28); only GETC, IN, PUTS
and PUTSP begin or end a TRAP step of several steps of the model (log entries 3, 5 and 7). -/
def Obligations.InputOnlyConsumed : Prop :=
  ∀ (i : Instr) (s t : State), exec i s = .next t →
    (∃ n, ∀ k, t.input.answer k = s.input.answer (n + k)) ∧
    (¬ mayPoll i s → ¬ takesChar i → t.input = s.input) ∧ (¬ longService i → t.serving = s.serving)
end

