-- ==== Sys2Proof/Laws/Bits.lean ====
section
/-! SUPPORT. Reading a field back from appended bit fields. -/

namespace Sys2Proof.Laws

/-- A field above the lower part is a field of the upper part. -/
theorem extract_high {k q : Nat} (y : BitVec k) (b : BitVec q) (j l : Nat) :
    (y ++ b).extractLsb' (q + j) l = y.extractLsb' j l := by
  ext i hi
  simp only [BitVec.getElem_extractLsb', BitVec.getLsbD_append]
  rw [if_neg (by omega)]
  congr 1; omega

/-- A field inside the lower part. -/
theorem extract_low {k q : Nat} (y : BitVec k) (b : BitVec q) {j l : Nat} (h : j + l ≤ q) :
    (y ++ b).extractLsb' j l = b.extractLsb' j l := by
  ext i hi
  simp only [BitVec.getElem_extractLsb', BitVec.getLsbD_append]
  rw [if_pos (by omega)]

/-- All of a bit vector. -/
theorem extract_all {k : Nat} (y : BitVec k) : y.extractLsb' 0 k = y := by
  simp

end Sys2Proof.Laws
end

