-- ==== Sys2Proof/Laws/State.lean ====
section
/-! SUPPORT. One lemma per field and update of State, and per read of a register or memory word after one. -/

namespace Sys2Proof.Machine

section fields
variable (s : State) (i : Reg) (v w a : Word) (bs : List Byte) (c : FaultCause)

@[simp] theorem setReg_regs : (s.setReg i v).regs = s.regs.set i.toFin v := rfl
@[simp] theorem setReg_pc : (s.setReg i v).pc = s.pc := rfl
@[simp] theorem setReg_cond : (s.setReg i v).cond = s.cond := rfl
@[simp] theorem setReg_run : (s.setReg i v).run = s.run := rfl
@[simp] theorem setReg_mem : (s.setReg i v).mem = s.mem := rfl
@[simp] theorem setReg_input : (s.setReg i v).input = s.input := rfl
@[simp] theorem setReg_out : (s.setReg i v).out = s.out := rfl
@[simp] theorem setReg_serving : (s.setReg i v).serving = s.serving := rfl

@[simp] theorem setPc_regs : (s.setPc v).regs = s.regs := rfl
@[simp] theorem setPc_pc : (s.setPc v).pc = v := rfl
@[simp] theorem setPc_cond : (s.setPc v).cond = s.cond := rfl
@[simp] theorem setPc_run : (s.setPc v).run = s.run := rfl
@[simp] theorem setPc_mem : (s.setPc v).mem = s.mem := rfl
@[simp] theorem setPc_input : (s.setPc v).input = s.input := rfl
@[simp] theorem setPc_out : (s.setPc v).out = s.out := rfl
@[simp] theorem setPc_serving : (s.setPc v).serving = s.serving := rfl

@[simp] theorem setcc_regs : (setcc v s).regs = s.regs := rfl
@[simp] theorem setcc_pc : (setcc v s).pc = s.pc := rfl
@[simp] theorem setcc_cond : (setcc v s).cond = flagOf v := rfl
@[simp] theorem setcc_run : (setcc v s).run = s.run := rfl
@[simp] theorem setcc_mem : (setcc v s).mem = s.mem := rfl
@[simp] theorem setcc_input : (setcc v s).input = s.input := rfl
@[simp] theorem setcc_out : (setcc v s).out = s.out := rfl
@[simp] theorem setcc_serving : (setcc v s).serving = s.serving := rfl

@[simp] theorem poke_regs : (s.poke a v).regs = s.regs := rfl
@[simp] theorem poke_pc : (s.poke a v).pc = s.pc := rfl
@[simp] theorem poke_cond : (s.poke a v).cond = s.cond := rfl
@[simp] theorem poke_run : (s.poke a v).run = s.run := rfl
@[simp] theorem poke_mem : (s.poke a v).mem = s.mem.write a.toNat v := rfl
@[simp] theorem poke_input : (s.poke a v).input = s.input := rfl
@[simp] theorem poke_out : (s.poke a v).out = s.out := rfl
@[simp] theorem poke_serving : (s.poke a v).serving = s.serving := rfl

@[simp] theorem emit_regs : (emit bs s).regs = s.regs := rfl
@[simp] theorem emit_pc : (emit bs s).pc = s.pc := rfl
@[simp] theorem emit_cond : (emit bs s).cond = s.cond := rfl
@[simp] theorem emit_run : (emit bs s).run = s.run := rfl
@[simp] theorem emit_mem : (emit bs s).mem = s.mem := rfl
@[simp] theorem emit_input : (emit bs s).input = s.input := rfl
@[simp] theorem emit_out : (emit bs s).out = s.out ++ bs := rfl
@[simp] theorem emit_serving : (emit bs s).serving = s.serving := rfl

@[simp] theorem raise_regs : (raise c s).regs = s.regs := rfl
@[simp] theorem raise_pc : (raise c s).pc = s.pc := rfl
@[simp] theorem raise_cond : (raise c s).cond = s.cond := rfl
@[simp] theorem raise_run : (raise c s).run = .faulted := rfl
@[simp] theorem raise_mem : (raise c s).mem = s.mem := rfl
@[simp] theorem raise_input : (raise c s).input = s.input := rfl
@[simp] theorem raise_out : (raise c s).out = s.out := rfl
@[simp] theorem raise_serving : (raise c s).serving = s.serving := rfl

@[simp] theorem setPc_reg : (s.setPc v).reg i = s.reg i := rfl
@[simp] theorem setcc_reg : (setcc v s).reg i = s.reg i := rfl
@[simp] theorem poke_reg : (s.poke a v).reg i = s.reg i := rfl
@[simp] theorem emit_reg : (emit bs s).reg i = s.reg i := rfl
@[simp] theorem raise_reg : (raise c s).reg i = s.reg i := rfl

@[simp] theorem setReg_peek : (s.setReg i v).peek a = s.peek a := rfl
@[simp] theorem setPc_peek : (s.setPc v).peek a = s.peek a := rfl
@[simp] theorem setcc_peek : (setcc v s).peek a = s.peek a := rfl
@[simp] theorem emit_peek : (emit bs s).peek a = s.peek a := rfl
@[simp] theorem raise_peek : (raise c s).peek a = s.peek a := rfl

end fields

/-- A register read after a register write (R10: no aliases, none hardwired). -/
@[simp] theorem setReg_reg (s : State) (i j : Reg) (v : Word) :
    (s.setReg i v).reg j = if i = j then v else s.reg j := by
  simp only [State.reg, State.setReg, Fin.getElem_fin, Vector.getElem_set]
  by_cases h : i = j
  · simp [h]
  · simpa [h] using fun e => absurd (BitVec.eq_of_toNat_eq e) h

/-- The result write of a flag-updating instruction, whole. -/
theorem writeResult_wroteResult (dr : Reg) (v : Word) (s : State) : wroteResult dr v s (writeResult dr v s) := by
  refine ⟨by simp [writeResult], fun q h => by simp [writeResult, Ne.symm h], ?_, rfl, fun a => rfl, rfl, rfl, rfl, rfl⟩
  rfl

end Sys2Proof.Machine
end

