-- ==== Sys2Proof/Laws/Memory.lean ====
section
/-! SUPPORT. The laws of memory: the canonical form is kept, a read after a write, and equal reads make equal
memories. -/

namespace Sys2Proof.Machine

/-- Every address below all the listed ones reads as unlisted. -/
theorem Memory.read_below {m : Memory} {a : Nat} (h : ∀ c ∈ m, a < c.1) : m.read a = unlistedWord := by
  induction m with
  | nil => rfl
  | cons c m ih =>
    have := h c (by simp)
    rw [Memory.read, if_neg (by omega), ih fun d hd => h d (List.mem_cons_of_mem _ hd)]

/-- The entries after a write: the old ones, or the one written. -/
theorem Memory.mem_write {m : Memory} {a : Nat} {v : Word} {c : Nat × Word} (h : c ∈ m.write a v) :
    c ∈ m ∨ (c = (a, v) ∧ v ≠ unlistedWord) := by
  induction m with
  | nil =>
    simp only [Memory.write] at h
    split at h <;> simp_all
  | cons d m ih =>
    simp only [Memory.write] at h
    split at h
    · split at h <;> (simp_all; try tauto)
    · split at h
      · split at h <;> (simp_all; try tauto)
      · rcases List.mem_cons.1 h with h | h
        · simp [h]
        · rcases ih h with h | h
          · simp [h]
          · exact .inr h

/-- A write inside the address space keeps the canonical form. -/
theorem Memory.write_wf {m : Memory} {a : Nat} (v : Word) (hm : m.wf) (ha : a < 65536) : (m.write a v).wf := by
  refine ⟨?_, fun c hc => ?_⟩
  · induction m with
    | nil => simp only [Memory.write]; split <;> simp
    | cons c m ih =>
      obtain ⟨⟨hc, hp⟩, hb⟩ := And.intro (List.pairwise_cons.1 hm.1) hm.2
      have hm' : Memory.wf m := ⟨hp, fun d hd => hb d (List.mem_cons_of_mem _ hd)⟩
      simp only [Memory.write]
      split
      · rename_i hlt
        split
        · exact hm.1
        · refine List.pairwise_cons.2 ⟨fun d hd => ?_, hm.1⟩
          rcases List.mem_cons.1 hd with rfl | hd
          · exact hlt
          · exact lt_trans hlt (hc d hd)
      · split
        · rename_i he
          subst he
          split
          · exact hp
          · exact List.pairwise_cons.2 ⟨hc, hp⟩
        · refine List.pairwise_cons.2 ⟨fun d hd => ?_, ih hm'⟩
          rcases Memory.mem_write hd with hd | ⟨rfl, -⟩
          · exact hc d hd
          · simp only; omega
  · rcases Memory.mem_write hc with hc | ⟨rfl, hv⟩
    · exact hm.2 c hc
    · exact ⟨ha, hv⟩

/-- A read after a write, in canonical memory: the value written at that address, the old word elsewhere. -/
theorem Memory.read_write {m : Memory} (hm : m.wf) (a b : Nat) (v : Word) :
    (m.write a v).read b = if b = a then v else m.read b := by
  induction m with
  | nil =>
    simp only [Memory.write]
    split <;> by_cases h : b = a <;> simp_all [Memory.read, @eq_comm _ a b]
  | cons c m ih =>
    obtain ⟨⟨hc, hp⟩, hb⟩ := And.intro (List.pairwise_cons.1 hm.1) hm.2
    have ih := ih ⟨hp, fun d hd => hb d (List.mem_cons_of_mem _ hd)⟩
    have below : ∀ a, a < c.1 → Memory.read (c :: m) a = unlistedWord := fun a ha =>
      Memory.read_below fun d hd => by
        rcases List.mem_cons.1 hd with rfl | hd
        · exact ha
        · exact lt_trans ha (hc d hd)
    simp only [Memory.write]
    split
    · rename_i hlt
      have := below a hlt
      split <;> by_cases h : b = a <;> simp_all [Memory.read, @eq_comm _ a b]
    · split
      · rename_i he
        have := Memory.read_below (m := m) (a := a) (fun d hd => he ▸ hc d hd)
        split <;> by_cases h : b = a <;> simp_all [Memory.read, @eq_comm _ c.1 b]
      · by_cases h : b = a <;> by_cases h' : c.1 = b <;> simp_all [Memory.read]

/-- A nonzero word reads back from any list, canonical or not. -/
theorem Memory.read_write_listed (m : Memory) (a b : Nat) {v : Word} (hv : v ≠ unlistedWord) :
    (m.write a v).read b = if b = a then v else m.read b := by
  induction m with
  | nil => by_cases h : b = a <;> simp_all [Memory.write, Memory.read, @eq_comm _ a b]
  | cons c m ih =>
    simp only [Memory.write, if_neg hv]
    split
    · by_cases h : b = a <;> simp_all [Memory.read, @eq_comm _ a b]
    · split
      · by_cases h : b = a <;> simp_all [Memory.read, @eq_comm _ c.1 b]
      · by_cases h : b = a <;> by_cases h' : c.1 = b <;> simp_all [Memory.read]

/-- Canonical memories with equal reads are equal data. -/
theorem Memory.ext {m n : Memory} (hm : m.wf) (hn : n.wf) (h : ∀ a, m.read a = n.read a) : m = n := by
  induction m generalizing n with
  | nil =>
    cases n with
    | nil => rfl
    | cons d n =>
      have := h d.1
      exact absurd (by simpa [Memory.read] using this.symm) (hn.2 d (by simp)).2
  | cons c m ih =>
    have hmp := List.pairwise_cons.1 hm.1
    cases n with
    | nil =>
      have := h c.1
      exact absurd (by simpa [Memory.read] using this) (hm.2 c (by simp)).2
    | cons d n =>
      have hnp := List.pairwise_cons.1 hn.1
      have head : ∀ {x y : Nat × Word} {p q : Memory}, x.2 ≠ unlistedWord → (∀ e ∈ q, y.1 < e.1) →
          (∀ a, Memory.read (x :: p) a = Memory.read (y :: q) a) → ¬ x.1 < y.1 := by
        intro x y p q hx hq hr hlt
        refine hx ?_
        have := hr x.1
        rw [Memory.read_below (m := y :: q) (a := x.1)] at this
        · simpa [Memory.read] using this
        · intro e he
          rcases List.mem_cons.1 he with rfl | he
          · exact hlt
          · exact lt_trans hlt (hq e he)
      have e1 : c.1 = d.1 := by
        have h1 := head (hm.2 c (by simp)).2 hnp.1 h
        have h2 := head (hn.2 d (by simp)).2 hmp.1 (fun a => (h a).symm)
        omega
      have e2 : c.2 = d.2 := by
        have := h c.1
        simpa [Memory.read, e1] using this
      have ed : c = d := Prod.ext e1 e2
      subst ed
      congr 1
      refine ih ⟨hmp.2, fun e he => hm.2 e (List.mem_cons_of_mem _ he)⟩
        ⟨hnp.2, fun e he => hn.2 e (List.mem_cons_of_mem _ he)⟩ fun a => ?_
      by_cases ha : c.1 = a
      · subst ha
        rw [Memory.read_below hmp.1, Memory.read_below hnp.1]
      · simpa [Memory.read, ha] using h a

/-- A word read after a store, in canonical memory (R30, R35). -/
theorem poke_peek {s : State} (hm : s.mem.wf) (a b v : Word) :
    (s.poke a v).peek b = if b = a then v else s.peek b := by
  simp only [State.peek, poke_mem, Memory.read_write hm]
  by_cases h : b = a
  · simp [h]
  · have : b.toNat ≠ a.toNat := fun e => h (BitVec.eq_of_toNat_eq e)
    simp [h, this]

/-- A store keeps the canonical form. -/
theorem poke_wf {s : State} (hm : s.mem.wf) (a v : Word) : (s.poke a v).mem.wf :=
  Memory.write_wf v hm a.isLt

end Sys2Proof.Machine
end

