-- ==== Sys2Proof/Laws/Ops.lean ====
section
/-! SUPPORT. What each shared operation can do, once: the poll and MemRead, the fetch, the wait, the string loop. -/

namespace Sys2Proof.Machine

/-- A consultation answers the host's next answer and leaves the answers after it (R16). -/
theorem consult_answer (h : HostInput) : h.consult.1 = h.answer 0 ∧ ∀ k, h.consult.2.answer k = h.answer (k + 1) := by
  obtain ⟨as, host, n⟩ := h
  cases as with
  | nil => exact ⟨by simp [HostInput.consult, HostInput.answer],
      fun k => by simp [HostInput.consult, HostInput.answer, Nat.add_comm, Nat.add_left_comm]⟩
  | cons a as => exact ⟨by simp [HostInput.consult, HostInput.answer],
      fun k => by simp [HostInput.consult, HostInput.answer]⟩

/-- The poll touches memory and INPUT only. -/
@[simp] theorem poll_regs (s : State) : s.poll.regs = s.regs := by unfold State.poll; split <;> rfl
@[simp] theorem poll_pc (s : State) : s.poll.pc = s.pc := by unfold State.poll; split <;> rfl
@[simp] theorem poll_cond (s : State) : s.poll.cond = s.cond := by unfold State.poll; split <;> rfl
@[simp] theorem poll_run (s : State) : s.poll.run = s.run := by unfold State.poll; split <;> rfl
@[simp] theorem poll_out (s : State) : s.poll.out = s.out := by unfold State.poll; split <;> rfl
@[simp] theorem poll_serving (s : State) : s.poll.serving = s.serving := by unfold State.poll; split <;> rfl
@[simp] theorem poll_input (s : State) : s.poll.input = s.input.consult.2 := by
  unfold State.poll; split <;> rename_i h <;> simp [h]
@[simp] theorem poll_reg (s : State) (i : Reg) : s.poll.reg i = s.reg i := by simp [State.reg]

/-- The poll keeps memory canonical. -/
theorem poll_wf {s : State} (hm : s.mem.wf) : s.poll.mem.wf := by
  unfold State.poll
  split
  · exact poke_wf (s := ({ s with input := _ } : State).poke _ _) (poke_wf (s := { s with input := _ }) hm _ _) _ _
  · exact poke_wf (s := { s with input := _ }) hm _ _

/-- What the poll leaves in memory, word by word (R34). -/
theorem poll_peek {s : State} (hm : s.mem.wf) (b : Word) :
    s.poll.peek b = if b = kbsrAddr then (if s.input.consult.1.isSome then 0x8000#16 else 0x0000#16)
      else if b = kbdrAddr then (s.input.consult.1.map (·.zeroExtend 16)).getD (s.peek b) else s.peek b := by
  unfold State.poll
  split
  · rename_i c h e
    have h1 : ({ s with input := h } : State).mem.wf := hm
    rw [poke_peek (poke_wf h1 _ _), poke_peek h1]
    simp only [e]
    rfl
  · rename_i h e
    have h1 : ({ s with input := h } : State).mem.wf := hm
    rw [poke_peek h1]
    simp only [e]
    by_cases hb : b = kbsrAddr
    · simp [hb]
    · simp only [if_neg hb]
      split <;> rfl

/-- `MemRead` away from KBDR has no side effect (R34, R38). -/
theorem memRead_plain {a : Word} (h : a ≠ kbPollAddr) (s : State) : memRead a s = (s.peek a, s) := by
  simp [memRead, h]

/-- `MemRead` at KBDR polls first (R34). -/
theorem memRead_poll (s : State) : memRead kbPollAddr s = (s.poll.peek kbPollAddr, s.poll) := by
  simp [memRead]

/-- The state after a `MemRead` is the one before, or the one the poll left. -/
theorem memRead_state (a : Word) (s : State) :
    (memRead a s).2 = s ∨ (a = kbPollAddr ∧ (memRead a s).2 = s.poll) := by
  by_cases h : a = kbPollAddr
  · exact .inr ⟨h, by subst h; rw [memRead_poll]⟩
  · exact .inl (by rw [memRead_plain h])

@[simp] theorem memRead_regs (a : Word) (s : State) : (memRead a s).2.regs = s.regs := by
  rcases memRead_state a s with h | ⟨-, h⟩ <;> simp [h]
@[simp] theorem memRead_reg (a : Word) (s : State) (i : Reg) : (memRead a s).2.reg i = s.reg i := by simp [State.reg]
@[simp] theorem memRead_pc (a : Word) (s : State) : (memRead a s).2.pc = s.pc := by
  rcases memRead_state a s with h | ⟨-, h⟩ <;> simp [h]
@[simp] theorem memRead_cond (a : Word) (s : State) : (memRead a s).2.cond = s.cond := by
  rcases memRead_state a s with h | ⟨-, h⟩ <;> simp [h]
@[simp] theorem memRead_run (a : Word) (s : State) : (memRead a s).2.run = s.run := by
  rcases memRead_state a s with h | ⟨-, h⟩ <;> simp [h]
@[simp] theorem memRead_out (a : Word) (s : State) : (memRead a s).2.out = s.out := by
  rcases memRead_state a s with h | ⟨-, h⟩ <;> simp [h]
@[simp] theorem memRead_serving (a : Word) (s : State) : (memRead a s).2.serving = s.serving := by
  rcases memRead_state a s with h | ⟨-, h⟩ <;> simp [h]

/-- A word read is the word that stands at the address after the read (R34). -/
theorem memRead_value (a : Word) (s : State) : (memRead a s).1 = (memRead a s).2.peek a := rfl

/-- `MemRead` keeps memory canonical. -/
theorem memRead_wf (a : Word) {s : State} (hm : s.mem.wf) : (memRead a s).2.mem.wf := by
  rcases memRead_state a s with h | ⟨-, h⟩ <;> rw [h]
  · exact hm
  · exact poll_wf hm

/-- `MemRead` leaves every word but KBSR and KBDR. -/
theorem memRead_peek (a : Word) {s : State} (hm : s.mem.wf) {b : Word} (h1 : b ≠ kbsrAddr) (h2 : b ≠ kbdrAddr) :
    (memRead a s).2.peek b = s.peek b := by
  rcases memRead_state a s with h | ⟨-, h⟩ <;> rw [h]
  rw [poll_peek hm, if_neg h1, if_neg h2]

/-- The fetch, in terms of `MemRead` (R70, R71). -/
theorem fetch_eq (s : State) : fetch s = ((memRead s.pc s).1, (memRead s.pc s).2.setPc (s.pc + 1)) := rfl

/-- One consultation inside GETC or IN: the service finishes with the character, or the core waits (R77). -/
theorem awaitChar_cases (k : CharService) (s : State) :
    (∃ c, s.input.consult.1 = some c ∧
      awaitChar k s = finishCharService k c { s with input := s.input.consult.2, serving := none }) ∨
    (s.input.consult.1 = none ∧ awaitChar k s = { s with input := s.input.consult.2, serving := some (.char k) }) := by
  unfold awaitChar
  split <;> rename_i e <;> simp [e]

/-- What GETC and IN leave untouched, character or not (R130). -/
theorem awaitChar_frame (k : CharService) (s : State) :
    (awaitChar k s).pc = s.pc ∧ (awaitChar k s).cond = s.cond ∧ (awaitChar k s).run = s.run ∧
    (awaitChar k s).mem = s.mem ∧ (awaitChar k s).input = s.input.consult.2 ∧
    (∀ q, q ≠ 0 → (awaitChar k s).reg q = s.reg q) := by
  rcases awaitChar_cases k s with ⟨c, -, h⟩ | ⟨-, h⟩ <;> rw [h]
  · cases k <;> exact ⟨rfl, rfl, rfl, rfl, rfl, fun q hq => (setReg_reg _ 0 q _).trans (if_neg (Ne.symm hq))⟩
  · exact ⟨rfl, rfl, rfl, rfl, rfl, fun q _ => rfl⟩

/-- One turn of the string loop. -/
theorem stringLoop_succ (chars : Word → List Byte) (n : Nat) (a : Word) (s : State) :
    stringLoop chars (n + 1) a s =
      if (memRead a s).1 = 0x0000#16 then (none, (memRead a s).2)
      else stringLoop chars n (a + 1) (emit (chars (memRead a s).1) (memRead a s).2) := rfl

/-- What the string loop keeps, ended or not: everything of the machine but memory (through the poll), INPUT and OUT
(R130). -/
theorem stringLoop_keeps (chars : Word → List Byte) (n : Nat) (a : Word) (s : State) :
    (stringLoop chars n a s).2.regs = s.regs ∧ (stringLoop chars n a s).2.pc = s.pc ∧
    (stringLoop chars n a s).2.cond = s.cond ∧ (stringLoop chars n a s).2.run = s.run ∧
    (stringLoop chars n a s).2.serving = s.serving := by
  induction n generalizing a s with
  | zero => exact ⟨rfl, rfl, rfl, rfl, rfl⟩
  | succ n ih =>
    rw [stringLoop_succ]
    split
    · simp
    · simpa using ih (a + 1) (emit (chars (memRead a s).1) (memRead a s).2)

/-- The string loop keeps memory canonical and every word but KBSR and KBDR. -/
theorem stringLoop_memory (chars : Word → List Byte) (n : Nat) (a : Word) {s : State} (hm : s.mem.wf) :
    (stringLoop chars n a s).2.mem.wf ∧
    ∀ b, b ≠ kbsrAddr → b ≠ kbdrAddr → (stringLoop chars n a s).2.peek b = s.peek b := by
  induction n generalizing a s with
  | zero => exact ⟨hm, fun b _ _ => rfl⟩
  | succ n ih =>
    rw [stringLoop_succ]
    split
    · exact ⟨memRead_wf a hm, fun b h1 h2 => memRead_peek a hm h1 h2⟩
    · obtain ⟨h1, h2⟩ := ih (a + 1) (s := emit (chars (memRead a s).1) (memRead a s).2) (memRead_wf a hm)
      exact ⟨h1, fun b hs hd => (h2 b hs hd).trans (memRead_peek a hm hs hd)⟩

/-- A loop that ends within the bound is the run of the rules that emits fewer words than the bound. -/
theorem stringLoop_ends {chars : Word → List Byte} {n : Nat} {a : Word} {s t : State} :
    stringLoop chars n a s = (none, t) ↔ ∃ m, m < n ∧ StringRun chars m a s t := by
  induction n generalizing a s with
  | zero => simp [stringLoop]
  | succ n ih =>
    rw [stringLoop_succ]
    by_cases hz : (memRead a s).1 = 0x0000#16
    · rw [if_pos hz]
      refine ⟨fun h => ?_, fun ⟨m, hm, h⟩ => ?_⟩
      · cases h; exact ⟨0, Nat.succ_pos n, .stop a s hz⟩
      · cases h with
        | stop => rfl
        | more _ _ _ _ h => exact absurd hz h
    · rw [if_neg hz, ih]
      refine ⟨fun ⟨m, hm, h⟩ => ⟨m + 1, Nat.succ_lt_succ hm, .more m a s t hz h⟩, fun ⟨m, hm, h⟩ => ?_⟩
      cases h with
      | stop _ _ h => exact absurd h hz
      | more m _ _ _ _ h => exact ⟨m, Nat.lt_of_succ_lt_succ hm, h⟩

/-- A loop that the bound leaves incomplete stands `n` words on in the run of the rules. -/
theorem stringLoop_goesOn {chars : Word → List Byte} {n : Nat} {a b : Word} {s u : State}
    (h : stringLoop chars n a s = (some b, u)) (m : Nat) (t : State) :
    StringRun chars (n + m) a s t ↔ StringRun chars m b u t := by
  induction n generalizing a s with
  | zero => cases h; rw [Nat.zero_add]
  | succ n ih =>
    rw [stringLoop_succ] at h
    split at h
    · cases h
    · rename_i hz
      rw [← ih h, Nat.succ_add]
      refine ⟨fun h => ?_, fun h => .more _ a s t hz h⟩
      cases h with
      | more _ _ _ _ _ h => exact h

/-- What one step of a string service leaves untouched (R130). -/
theorem stringService_frame (k : StringKind) (a : Word) (s : State) :
    (stringService k a s).regs = s.regs ∧ (stringService k a s).pc = s.pc ∧ (stringService k a s).cond = s.cond ∧
    (stringService k a s).run = s.run :=
  have h := stringLoop_keeps (stringChars k) stringLap a { s with serving := none }
  ⟨h.1, h.2.1, h.2.2.1, h.2.2.2.1⟩

/-- One step of a string service keeps memory canonical and every word but KBSR and KBDR. -/
theorem stringService_memory (k : StringKind) (a : Word) {s : State} (hm : s.mem.wf) :
    (stringService k a s).mem.wf ∧
    ∀ b, b ≠ kbsrAddr → b ≠ kbdrAddr → (stringService k a s).peek b = s.peek b :=
  stringLoop_memory (stringChars k) stringLap a (s := { s with serving := none }) hm

end Sys2Proof.Machine
end

