-- ==== Sys2Proof/Laws/Exec.lean ====
section
/-! SUPPORT. What `exec` and `step` can do, once: the outcomes of an instruction, TRAP by its services, and the step
that runs a placed word. -/

namespace Sys2Proof.Machine

/-- The decoder gives the constructor `trap` only with the vector it was given, outside the closed set. -/
theorem trapInstr_cases (v : BitVec 8) :
    (isServiceVector v = true ∧ ∀ u, trapInstr v ≠ .trap u) ∨ (isServiceVector v = false ∧ trapInstr v = .trap v) := by
  have h : ∀ v : BitVec 8, (isServiceVector v = true ∧ (trapInstr v = .getc ∨ trapInstr v = .out ∨ trapInstr v = .puts ∨
      trapInstr v = .inp ∨ trapInstr v = .putsp ∨ trapInstr v = .halt)) ∨
      (isServiceVector v = false ∧ trapInstr v = .trap v) := by decide
  rcases h v with ⟨hv, h⟩ | h
  · refine .inl ⟨hv, fun u e => ?_⟩
    rw [e] at h
    simp at h
  · exact .inr h

/-- TRAP is the service of its vector, or the fault entry (R120, R127). -/
theorem exec_trap_cases (v : BitVec 8) (s : State) :
    (isServiceVector v = true ∧ (∀ u, trapInstr v ≠ .trap u) ∧ exec (.trap v) s = exec (trapInstr v) s) ∨
    (isServiceVector v = false ∧ exec (.trap v) s = .next { s with run := .faulted }) := by
  have key : ∀ n : Nat, (match n with
      | 0x20 => .next (serviceGetc s) | 0x21 => .next (serviceOut s) | 0x22 => .next (serviceString .puts s)
      | 0x23 => .next (serviceIn s) | 0x24 => .next (serviceString .putsp s) | 0x25 => .next (serviceHalt s)
      | _ => .next (raise (.unknownTrapVector v) s) : Result) =
      if n = 0x20 then .next (serviceGetc s) else if n = 0x21 then .next (serviceOut s)
      else if n = 0x22 then .next (serviceString .puts s) else if n = 0x23 then .next (serviceIn s)
      else if n = 0x24 then .next (serviceString .putsp s) else if n = 0x25 then .next (serviceHalt s)
      else .next (raise (.unknownTrapVector v) s) := by
    intro n
    split <;> simp_all
  have e : exec (.trap v) s = _ := key v.toNat
  rcases trapInstr_cases v with ⟨hv, hn⟩ | ⟨hv, hn⟩
  · refine .inl ⟨hv, hn, ?_⟩
    have : v = 0x20#8 ∨ v = 0x21#8 ∨ v = 0x22#8 ∨ v = 0x23#8 ∨ v = 0x24#8 ∨ v = 0x25#8 := by
      revert hv; clear e key hn; revert v; decide
    rcases this with rfl | rfl | rfl | rfl | rfl | rfl <;> rfl
  · refine .inr ⟨hv, ?_⟩
    have : v.toNat < 0x20 ∨ 0x25 < v.toNat := by
      simp only [isServiceVector, Bool.and_eq_false_iff, decide_eq_false_iff_not] at hv
      omega
    rw [e]
    repeat rw [if_neg (by omega)]
    rfl

/-- Every instruction answers a next state: none faults or is refused. -/
theorem exec_answers (i : Instr) (s : State) : ∃ t, exec i s = .next t := by
  have key : ∀ i, (∀ v, i ≠ .trap v) → ∃ t, exec i s = .next t := by
    intro i hi
    cases i with
    | trap v => exact absurd rfl (hi v)
    | _ => exact ⟨_, rfl⟩
  cases i with
  | trap v =>
    rcases exec_trap_cases v s with ⟨-, hn, h⟩ | ⟨-, h⟩
    · rw [h]; exact key _ hn
    · exact ⟨_, h⟩
  | _ => exact key _ (fun v => by simp)

/-- A Running core that is inside no service executes what it fetches. -/
theorem step_running {s : State} (h1 : s.run = .running) (h2 : s.serving = none) :
    step s = exec (decode (fetch s).1) (fetch s).2 := by
  simp only [step, h1, h2]

/-- A core inside a service goes on with it. -/
theorem step_serving {s : State} {v : Service} (h1 : s.run = .running) (h2 : s.serving = some v) :
    step s = .next (continueService v s) := by
  simp only [step, h1, h2]

/-- What a step that answers a next state was. -/
theorem step_cases {s t : State} (h : step s = .next t) :
    s.run = .running ∧
    ((s.serving = none ∧ exec (decode (fetch s).1) (fetch s).2 = .next t) ∨
     (∃ v, s.serving = some v ∧ t = continueService v s)) := by
  cases hr : s.run with
  | running =>
    refine ⟨rfl, ?_⟩
    cases hw : s.serving with
    | none => exact .inl ⟨rfl, (step_running hr hw) ▸ h⟩
    | some k =>
      rw [step_serving hr hw] at h
      cases h
      exact .inr ⟨k, rfl, rfl⟩
  | halted => simp [step, hr] at h
  | faulted => simp [step, hr] at h

/-- The next step runs the word that `withFetch` places, at any pc. -/
theorem step_withFetch {s : State} (hm : s.mem.wf) (w : Word) :
    ∃ t, fetch (s.withFetch w) = (w, t) ∧ step (s.withFetch w) = exec (decode w) t ∧ t.pc = s.pc + 1 ∧
      t.regs = s.regs ∧ t.cond = s.cond ∧ t.input = s.input ∧ t.out = s.out := by
  have key : (fetch (s.withFetch w)).1 = w ∧ (s.withFetch w).run = .running ∧ (s.withFetch w).serving = none ∧
      (fetch (s.withFetch w)).2.pc = s.pc + 1 ∧ (fetch (s.withFetch w)).2.regs = s.regs ∧
      (fetch (s.withFetch w)).2.cond = s.cond ∧ (fetch (s.withFetch w)).2.input = s.input ∧
      (fetch (s.withFetch w)).2.out = s.out := by
    have h1 : ({ s with run := .running, serving := none } : State).mem.wf := hm
    have hpc : (s.withFetch w).pc = s.pc := by unfold State.withFetch; simp only; split <;> rfl
    by_cases h : s.pc = kbPollAddr
    · have e : s.withFetch w = { s with
          run := .running, serving := none, mem := s.mem.write s.pc.toNat w
          input := { s.input with answers := none :: s.input.answers } } := by
        unfold State.withFetch; simp only [if_pos h]; rfl
      have hp : (s.withFetch w).poll.peek kbPollAddr = w := by
        rw [poll_peek (by rw [e]; exact poke_wf h1 _ _)]
        have : (s.withFetch w).peek kbPollAddr = w := by
          rw [e, ← h]; exact (poke_peek h1 _ _ _).trans (if_pos rfl)
        simpa [e, HostInput.consult, kbPollAddr, kbdrAddr, kbsrAddr] using this
      rw [fetch_eq, hpc, h, memRead_poll]
      refine ⟨hp, by rw [e], by rw [e], rfl, ?_, ?_, ?_, ?_⟩ <;> simp [e, HostInput.consult]
    · have e : s.withFetch w = ({ s with run := .running, serving := none } : State).poke s.pc w := by
        unfold State.withFetch; simp only [if_neg h]
      rw [fetch_eq, hpc, memRead_plain h, e]
      exact ⟨(poke_peek h1 _ _ _).trans (if_pos rfl), rfl, rfl, rfl, rfl, rfl, rfl, rfl⟩
  obtain ⟨k1, k2, k3, k4⟩ := key
  refine ⟨_, Prod.ext k1 rfl, ?_, k4⟩
  simp only [step, k2, k3, k1]

end Sys2Proof.Machine
end

