-- ==== Sys2Proof/Laws/PerInstr.lean ====
section
/-! SUPPORT. Statements about every instruction, one lemma per constructor. `OpcodeBits`: bits[15:12] of an
instruction's word select that instruction's tag in the opcode map (R56). -/

namespace Sys2Proof.Laws.OpcodeBits

/-- Bits[15:12] of the encoded word select the instruction's own opcode tag. -/
def Statement (i : Instr) : Prop := opcodeTag ((encode i).extractLsb' 12 4) = i.opcode

/-- The opcode of a word made of two fields. -/
theorem top_two {p q : Nat} (n : BitVec 4) (a : BitVec p) (b : BitVec q) :
    (n ++ a ++ b).extractLsb' (q + (p + 0)) 4 = n := by
  rw [extract_high, extract_high, extract_all]

/-- The opcode of a word made of three fields. -/
theorem top_three {p q r : Nat} (n : BitVec 4) (a : BitVec p) (b : BitVec q) (c : BitVec r) :
    (n ++ a ++ b ++ c).extractLsb' (r + (q + (p + 0))) 4 = n := by
  rw [extract_high, top_two]

/-- The opcode of a word made of four fields. -/
theorem top_four {p q r t : Nat} (n : BitVec 4) (a : BitVec p) (b : BitVec q) (c : BitVec r) (d : BitVec t) :
    (n ++ a ++ b ++ c ++ d).extractLsb' (t + (r + (q + (p + 0)))) 4 = n := by
  rw [extract_high, top_three]

theorem br (nzp : BitVec 3) (off9 : BitVec 9) : Statement (.br nzp off9) :=
  congrArg opcodeTag (top_two _ _ _)

theorem addReg (dr sr1 sr2 : Reg) : Statement (.addReg dr sr1 sr2) :=
  congrArg opcodeTag (top_four _ _ _ _ _)

theorem addImm (dr sr1 : Reg) (imm5 : BitVec 5) : Statement (.addImm dr sr1 imm5) :=
  congrArg opcodeTag (top_four _ _ _ _ _)

theorem ld (dr : Reg) (off9 : BitVec 9) : Statement (.ld dr off9) :=
  congrArg opcodeTag (top_two _ _ _)

theorem st (sr : Reg) (off9 : BitVec 9) : Statement (.st sr off9) :=
  congrArg opcodeTag (top_two _ _ _)

theorem jsr (off11 : BitVec 11) : Statement (.jsr off11) :=
  congrArg opcodeTag (top_two _ _ _)

theorem jsrr (baseR : Reg) : Statement (.jsrr baseR) :=
  congrArg opcodeTag (top_three _ _ _ _)

theorem andReg (dr sr1 sr2 : Reg) : Statement (.andReg dr sr1 sr2) :=
  congrArg opcodeTag (top_four _ _ _ _ _)

theorem andImm (dr sr1 : Reg) (imm5 : BitVec 5) : Statement (.andImm dr sr1 imm5) :=
  congrArg opcodeTag (top_four _ _ _ _ _)

theorem ldr (dr baseR : Reg) (off6 : BitVec 6) : Statement (.ldr dr baseR off6) :=
  congrArg opcodeTag (top_three _ _ _ _)

theorem str (sr baseR : Reg) (off6 : BitVec 6) : Statement (.str sr baseR off6) :=
  congrArg opcodeTag (top_three _ _ _ _)

theorem rti : Statement .rti := by unfold Statement; decide

theorem not (dr sr1 : Reg) : Statement (.not dr sr1) :=
  congrArg opcodeTag (top_three _ _ _ _)

theorem ldi (dr : Reg) (off9 : BitVec 9) : Statement (.ldi dr off9) :=
  congrArg opcodeTag (top_two _ _ _)

theorem sti (sr : Reg) (off9 : BitVec 9) : Statement (.sti sr off9) :=
  congrArg opcodeTag (top_two _ _ _)

theorem jmp (baseR : Reg) : Statement (.jmp baseR) :=
  congrArg opcodeTag (top_three _ _ _ _)

theorem res : Statement .res := by unfold Statement; decide

theorem lea (dr : Reg) (off9 : BitVec 9) : Statement (.lea dr off9) :=
  congrArg opcodeTag (top_two _ _ _)

theorem trap (trapvect8 : BitVec 8) : Statement (.trap trapvect8) :=
  congrArg opcodeTag (top_two _ _ _)

theorem getc : Statement .getc := by unfold Statement; decide

theorem out : Statement .out := by unfold Statement; decide

theorem puts : Statement .puts := by unfold Statement; decide

theorem inp : Statement .inp := by unfold Statement; decide

theorem putsp : Statement .putsp := by unfold Statement; decide

theorem halt : Statement .halt := by unfold Statement; decide

end Sys2Proof.Laws.OpcodeBits
end

