-- ==== Sys2Proof/Tests/Slice0.lean ====
section
/-! SUPPORT. The model's own tests: words written out from the encodings of 30_encoding.md, one step on the vectors of
95_test_vectors.md, the ill-formed terms, and a witness for the hypotheses of every statement that has some. -/

namespace Sys2Proof.Tests

open Sys2Proof.Machine

/-! ## Decoding: one word for every constructor, its fields set apart by the formats of R55 -/

theorem test_decode_br : decode 0b0000_101_000001010#16 = .br 0b101 10 := by decide
theorem test_decode_addReg : decode 0b0001_001_010_0_00_011#16 = .addReg 1 2 3 := by decide
theorem test_decode_addImm : decode 0b0001_001_010_1_10001#16 = .addImm 1 2 0b10001 := by decide
theorem test_decode_ld : decode 0b0010_110_111111110#16 = .ld 6 0x1FE := by decide
theorem test_decode_st : decode 0b0011_110_000000001#16 = .st 6 1 := by decide
theorem test_decode_jsr : decode 0b0100_1_10000000001#16 = .jsr 0x401 := by decide
theorem test_decode_jsrr : decode 0b0100_0_11_010_111111#16 = .jsrr 2 := by decide
theorem test_decode_andReg : decode 0b0101_100_101_0_11_110#16 = .andReg 4 5 6 := by decide
theorem test_decode_andImm : decode 0b0101_100_101_1_01111#16 = .andImm 4 5 0b01111 := by decide
theorem test_decode_ldr : decode 0b0110_011_100_100000#16 = .ldr 3 4 0b100000 := by decide
theorem test_decode_str : decode 0b0111_011_100_011111#16 = .str 3 4 0b011111 := by decide
theorem test_decode_rti : decode 0b1000_101010101010#16 = .rti := by decide
theorem test_decode_not : decode 0b1001_010_001_000000#16 = .not 2 1 := by decide
theorem test_decode_ldi : decode 0b1010_001_000000100#16 = .ldi 1 4 := by decide
theorem test_decode_sti : decode 0b1011_001_000000100#16 = .sti 1 4 := by decide
theorem test_decode_jmp : decode 0b1100_111_010_111111#16 = .jmp 2 := by decide
theorem test_decode_res : decode 0b1101_010101010101#16 = .res := by decide
theorem test_decode_lea : decode 0b1110_000_000000101#16 = .lea 0 5 := by decide
theorem test_decode_trap : decode 0b1111_0000_00100110#16 = .trap 0x26 := by decide
theorem test_decode_getc : decode 0b1111_0000_00100000#16 = .getc := by decide
theorem test_decode_out : decode 0b1111_1111_00100001#16 = .out := by decide
theorem test_decode_puts : decode 0b1111_0000_00100010#16 = .puts := by decide
theorem test_decode_inp : decode 0b1111_0000_00100011#16 = .inp := by decide
theorem test_decode_putsp : decode 0b1111_0000_00100100#16 = .putsp := by decide
theorem test_decode_halt : decode 0b1111_0101_00100101#16 = .halt := by decide

/-- The assembler's words of R61 and R62: RET, NOP, NOT with its conventional ones, and the services. -/
theorem test_encode_assembly : encode (.jmp 7) = 0xC1C0#16 ∧ encode (.br 0 0) = 0x0000#16 ∧
    encode (.not 0 1) = 0x907F#16 ∧ encode (.jsrr 2) = 0x4080#16 ∧ encode .halt = 0xF025#16 := by decide

/-- A row's word as the table numbers its bits. -/
theorem test_decodeTableWord : decodeTableWord 16 0xF023 = some .inp ∧ decodeTableWord 16 0x4800 = some (.jsr 0) ∧
    decodeTableWord 24 0 = none := by decide

/-- The one check of WellFormed refuses TRAP with a service vector, and with no other. -/
theorem test_illFormed_trap : (Instr.trap 0x20).wellFormed = false ∧ (Instr.trap 0x25).wellFormed = false ∧
    (Instr.trap 0x1F).wellFormed = true ∧ (Instr.trap 0x26).wellFormed = true := by decide

/-! ## One step on the spec's vectors -/

/-- The state after one step with `w` at pc, from `s`. -/
def after (w : Word) (s : State) : Option State :=
  match step (s.withFetch w) with
  | .next t => some t
  | .fault _ => none
  | .refused _ => none

/-- Reset with a host that answers with these characters first. -/
def typed (cs : List Byte) : State := State.resetWith [] { answers := cs.map some, host := 0, asked := 0 }

/-- Reset with a host that has no character at its first answer. -/
def untyped : State := State.resetWith [] { answers := [none], host := 0, asked := 0 }

/-- Vector A1: signed overflow is not reported. -/
theorem test_addReg_overflow : (after 0x1042 ((State.reset.setReg 1 0x7FFF).setReg 2 1)).map
    (fun t => (t.reg 0, t.cond)) = some (0x8000#16, 0b100#3) := by decide
/-- Vector A4: DR, SR1 and SR2 the same register. -/
theorem test_addReg_same : (after 0x1241 (State.reset.setReg 1 0x4000)).map
    (fun t => (t.reg 1, t.cond)) = some (0x8000#16, 0b100#3) := by decide
/-- S2: 0xFFFF + 1. -/
theorem test_addImm_wraps : (after 0x1021 (State.reset.setReg 0 0xFFFF)).map
    (fun t => (t.reg 0, t.cond)) = some (0x0000#16, 0b010#3) := by decide
/-- Vector A5: the least immediate. -/
theorem test_addImm_negative : (after 0x1070 (State.reset.setReg 1 0x0010)).map
    (fun t => (t.reg 0, t.cond)) = some (0x0000#16, 0b010#3) := by decide
/-- The example of R82. -/
theorem test_andReg : (after 0x5042 ((State.reset.setReg 1 0xFF0F).setReg 2 0x0FF0)).map
    (fun t => (t.reg 0, t.cond)) = some (0x0F00#16, 0b001#3) := by decide
/-- Vector N1: the immediate is sign-extended first. -/
theorem test_andImm_signExtends : (after 0x5070 (State.reset.setReg 1 0xABCD)).map
    (fun t => (t.reg 0, t.cond)) = some (0xABC0#16, 0b100#3) := by decide
/-- Vector T3: unused bits 000000. -/
theorem test_not : (after 0x9040 (State.reset.setReg 1 0x8000)).map
    (fun t => (t.reg 0, t.cond)) = some (0x7FFF#16, 0b001#3) := by decide
/-- Vector L2: pc and the address wrap. -/
theorem test_ld_wraps : (after 0x2000 ((State.reset.setPc 0xFFFF).poke 0x0000 0x1234)).map
    (fun t => (t.reg 0, t.cond, t.pc)) = some (0x1234#16, 0b001#3, 0x0000#16) := by decide
/-- Vector L1: LD of its own word. -/
theorem test_ld_self : (after 0x21FF State.reset).map (fun t => t.reg 0) = some 0x21FF#16 := by decide
/-- Vector L7: the data read at KBDR polls and takes the character. -/
theorem test_ldi_polls : (after 0xA000 (((typed [0x5A]).poke 0x3001 0xFE02).poke 0xFE02 0x0011)).map
    (fun t => (t.reg 0, t.peek 0xFE02, t.peek 0xFE00, t.input.answers.length)) =
    some (0x005A#16, 0x005A#16, 0x8000#16, 0) := by decide
/-- Vector L8: no character, the old KBDR word and KBSR cleared. -/
theorem test_ldi_pollsNone : (after 0xA000 (((untyped.poke 0x3001 0xFE02).poke 0xFE02 0x0011).poke 0xFE00 0x8000)).map
    (fun t => (t.reg 0, t.peek 0xFE02, t.peek 0xFE00)) = some (0x0011#16, 0x0011#16, 0x0000#16) := by decide
/-- Vector L9: DR is the base register. -/
theorem test_ldr_sameRegister : (after 0x6240 ((State.reset.setReg 1 0x4000).poke 0x4000 0x5000)).map
    (fun t => t.reg 1) = some 0x5000#16 := by decide
/-- Vector L11: the least offset, wrapping below 0. -/
theorem test_ldr_wraps : (after 0x6060 ((State.reset.setReg 1 0x0010).poke 0xFFF0 0xFFFF)).map
    (fun t => (t.reg 0, t.cond)) = some (0xFFFF#16, 0b100#3) := by decide
/-- S3: LEA R0, #5 at 0x3000. -/
theorem test_lea : (after 0xE005 State.reset).map (fun t => (t.reg 0, t.cond)) = some (0x3006#16, 0b001#3) := by decide
/-- Vector E4: LEA of KBDR's address does not poll. -/
theorem test_lea_noPoll : (after 0xE201 ((typed [0x51]).setPc 0xFE00)).map
    (fun t => (t.reg 1, t.input.answers.length)) = some (0xFE02#16, 1) := by decide
/-- Vector ST1: ST over its own word. -/
theorem test_st_self : (after 0x31FF (State.reset.setReg 0 0xBEEF)).map
    (fun t => (t.peek 0x3000, t.pc)) = some (0xBEEF#16, 0x3001#16) := by decide
/-- Vector ST4: a pointer to itself. -/
theorem test_sti_selfPointer : (after 0xB000 ((State.reset.setReg 0 0x5555).poke 0x3001 0x3001)).map
    (fun t => t.peek 0x3001) = some 0x5555#16 := by decide
/-- Vector ST5: a store to KBDR does not poll. -/
theorem test_sti_noPoll : (after 0xB000 (((typed [0x6B]).setReg 0 7).poke 0x3001 0xFE02)).map
    (fun t => (t.peek 0xFE02, t.peek 0xFE00, t.input.answers.length)) = some (0x0007#16, 0x0000#16, 1) := by decide
/-- Vector ST7: the least offset, wrapping below 0. -/
theorem test_str_wraps : (after 0x7060 (State.reset.setReg 0 0x1111)).map (fun t => t.peek 0xFFE0) =
    some 0x1111#16 := by decide
/-- S8: the mask is ANDed, not compared. -/
theorem test_br_mask : (after 0x0C0A { State.reset with cond := 0b010 }).map (fun t => t.pc) = some 0x300B#16 ∧
    (after 0x0C0A { State.reset with cond := 0b001 }).map (fun t => t.pc) = some 0x3001#16 := by decide
/-- P5: no flag is set after reset, so BRnzp is not taken. -/
theorem test_br_afterReset : (after 0x0E01 State.reset).map (fun t => t.pc) = some 0x3001#16 := by decide
/-- Vector J2: unused bits set. -/
theorem test_jmp : (after 0xCEBF (State.reset.setReg 2 0xFFFF)).map (fun t => t.pc) = some 0xFFFF#16 := by decide
/-- Vector K1: the least offset. -/
theorem test_jsr : (after 0x4C00 State.reset).map (fun t => (t.reg 7, t.pc)) = some (0x3001#16, 0x2C01#16) := by decide
/-- Vector K6: JSRR R7 goes to the link. -/
theorem test_jsrr_r7 : (after 0x41C0 (State.reset.setReg 7 0x5000)).map
    (fun t => (t.reg 7, t.pc)) = some (0x3001#16, 0x3001#16) := by decide
/-- Vector K7: any other base register. -/
theorem test_jsrr : (after 0x4680 (State.reset.setReg 2 0x4000)).map
    (fun t => (t.reg 7, t.pc)) = some (0x3001#16, 0x4000#16) := by decide
/-- Vector G1: the whole of R0 is overwritten, the flags are not touched. -/
theorem test_getc : (after 0xF020 { (typed [0x41]).setReg 0 0xFFFF with cond := 0b100 }).map
    (fun t => (t.reg 0, t.cond, t.serving)) = some (0x0041#16, 0b100#3, none) := by decide
/-- Vector G1b: with no input the step waits, pc incremented and nothing else changed. -/
theorem test_getc_waits : (after 0xF020 untyped).map (fun t => (t.pc, t.run, t.serving, t.reg 0)) =
    some (0x3001#16, .running, some (.char .getc), 0x0000#16) := by decide
/-- Vector G3: a zero low byte is emitted. -/
theorem test_out : (after 0xF021 (State.reset.setReg 0 0x4100)).map (fun t => t.out) = some [0x00#8] := by decide
/-- Vector G6: only a whole zero word ends the string. -/
theorem test_puts_wholeZero : (after 0xF022 (((State.reset.setReg 0 0x4000).poke 0x4000 0x4148).poke 0x4001 0x4100)).map
    (fun t => t.out) = some [0x48#8, 0x00#8] := by decide
/-- Vector G7's words, of a PUTS that is not complete: it goes on where it was, the address wraps, nothing is fetched. -/
theorem test_puts_goesOnAndWraps : (match step { State.resetWith [(0x0000, 0x0042), (0xFFFF, 0x0041)] State.reset.input with
      serving := some (.string .puts 0xFFFF) } with
    | .next t => some (t.pc, t.out, t.serving)
    | .fault _ => none
    | .refused _ => none) = some (0x3000#16, [0x41#8, 0x42#8], none) := by decide
/-- Vector G8: prompt, echo, R0, whatever the prompt is. -/
theorem test_in : (after 0xF023 ((typed [0x61]).setReg 0 0xFFFF)).map (fun t => (t.reg 0, t.out)) =
    some (0x0061#16, [] ++ Config.inPrompt ++ [0x61#8]) := rfl
/-- C12: the prompt is out before the wait. -/
theorem test_in_promptsBeforeTheWait : (after 0xF023 untyped).map (fun t => (t.serving, t.out)) =
    some (some (.char .inp), [] ++ Config.inPrompt) := rfl
/-- Vector G10: the low byte always, the high byte if nonzero. -/
theorem test_putsp : (after 0xF024 ((((State.reset.setReg 0 0x4000).poke 0x4000 0x4100).poke 0x4001 0x0042).poke
    0x4002 0x4300)).map (fun t => t.out) = some [0x00#8, 0x41#8, 0x42#8, 0x00#8, 0x43#8] := by decide
/-- Vector G12: HALT with unused bits set. -/
theorem test_halt : (after 0xFF25 State.reset).map (fun t => (t.run, t.pc, t.out)) =
    some (.halted, 0x3001#16, [] ++ Config.haltMsg) := rfl
/-- Vector G15, the last vector below the services. -/
theorem test_trap_unknown : (after 0xF01F State.reset).map (fun t => (t.run, t.pc, faultInfo t)) =
    some (.faulted, 0x3001#16, some (.unknownTrapVector 0x1F, 0x3000#16)) := by decide
/-- Vector G18. -/
theorem test_rti : (after 0x8FFF { State.reset.setReg 3 7 with cond := 0b010 }).map
    (fun t => (t.run, t.reg 3, t.cond, faultInfo t)) =
    some (.faulted, 0x0007#16, 0b010#3, some (.reservedOpcode 0x8, 0x3000#16)) := by decide
/-- Vector G20. -/
theorem test_res : (after 0xDABC State.reset).map (fun t => (t.run, t.pc, faultInfo t)) =
    some (.faulted, 0x3001#16, some (.reservedOpcode 0xD, 0x3000#16)) := by decide
/-- Vector F4: a fetch at KBDR polls first, and the word fetched is the character. -/
theorem test_fetch_polls : (match step { (typed [0x10]).poke 0xFE02 0x5020 with pc := 0xFE02 } with
    | .next t => some (t.pc, t.peek 0xFE02, t.peek 0xFE00, t.cond)
    | .fault _ => none
    | .refused _ => none) = some (0xFE03#16, 0x0010#16, 0x8000#16, 0b000#3) := by decide
/-- A placed word runs also where the fetch polls. -/
theorem test_withFetch_atKbdr : (after 0x1021 ((typed [0x41]).setPc 0xFE02)).map
    (fun t => (t.reg 0, t.pc, t.input.answers.length)) = some (0x0001#16, 0xFE03#16, 1) := by decide

/-! ## Witnesses: concrete states and operands that meet the hypotheses of the statements -/

/-- A canonical, Running state with a character to take, then none, and a string at R0. -/
def sample : State :=
  { State.resetWith [(0x4000, 0x0048), (0x4001, 0x4149)] { answers := [some 0x41, none], host := 0, asked := 0 } with
    cond := 0b001 }.setReg 0 0x4000

theorem witness_DecodeEncodeRoundTrip : (Instr.trap 0x1F).wellFormed = true ∧ (Instr.trap 0x26).wellFormed = true ∧
    (Instr.addImm 7 7 0x1F).wellFormed = true := by decide

theorem witness_IgnoredBitsSelectNothing : 0x0018#16 &&& ~~~(ignoredBits (decode 0x1042#16)) = 0x0000#16 ∧
    0x0FFF#16 &&& ~~~(ignoredBits (decode 0x8000#16)) = 0x0000#16 ∧
    0x0000#16 &&& ~~~(ignoredBits (decode 0x0405#16)) = 0x0000#16 := by decide

theorem witness_OnlyReservedWordsRaiseReservedOpcode : (0x8FFF#16).extractLsb' 12 4 = 0x8#4 ∧
    (0xD000#16).extractLsb' 12 4 = 0xD#4 := by decide

theorem witness_StepRunsTheDecodedInstruction : sample.run = .running ∧ sample.serving = none := by decide

theorem witness_NoStepOnceTheRunHasEnded : ({ sample with run := .halted } : State).run = .halted ∧
    ({ sample with run := .faulted } : State).run = .faulted ∧ ∃ t, step sample = .next t := ⟨rfl, rfl, _, rfl⟩

theorem witness_WaitingCoreOnlyAwaitsItsCharacter :
    ({ sample with serving := some (.char .inp) } : State).serving = some (.char .inp) ∧ sample.run = .running ∧
    sample.input.consult.1 = some 0x41 ∧
    ({ untyped with serving := some (.char .getc) } : State).serving = some (.char .getc) ∧ untyped.run = .running ∧
    untyped.input.consult.1 = none := ⟨rfl, rfl, rfl, rfl, rfl, rfl⟩

theorem witness_RunningCoreAlwaysHasAStep : sample.run = .running := rfl

theorem witness_StepKeepsTheInvariant : sample.Inv ∧ ∃ t, step sample = .next t := ⟨by decide, _, rfl⟩

theorem witness_ResetMeetsTheInvariant : Memory.wf [] ∧ Memory.wf [(0x0000, 0x0001), (0xFFFF, 0xFFFF)] := by decide

theorem witness_FlagsFollowTheWrittenResult : (setsCond (.lea 1 5) = true ∧ ∃ t, exec (.lea 1 5) sample = .next t) ∧
    (setsCond (.st 1 5) = false ∧ ∃ t, exec (.st 1 5) sample = .next t) := ⟨⟨rfl, _, rfl⟩, rfl, _, rfl⟩

theorem witness_OneFlagOnceAnyIsSet : State.reset.cond = 0b000#3 ∧ sample.cond = 0b001#3 ∧
    (∃ t, step sample = .next t) ∧ setsCond (.ld 1 5) = true ∧ ∃ t, exec (.ld 1 5) State.reset = .next t :=
  ⟨rfl, rfl, ⟨_, rfl⟩, rfl, _, rfl⟩

theorem witness_OnlyBranchReadsTheFlags : (∀ nzp off9, Instr.ldi 1 5 ≠ .br nzp off9) ∧ setsCond (.ldi 1 5) = true ∧
    (∀ nzp off9, Instr.puts ≠ .br nzp off9) := ⟨fun _ _ => by simp, rfl, fun _ _ => by simp⟩

theorem witness_RunStateChangesOnlyByHaltAndFaults : (∃ t, exec .halt sample = .next t) ∧
    (∃ t, exec (.trap 0x25) sample = .next t) ∧ (∃ t, exec (.trap 0x26) sample = .next t) ∧
    ∃ t, exec (.jmp 0) sample = .next t := ⟨⟨_, rfl⟩, ⟨_, rfl⟩, ⟨_, rfl⟩, _, rfl⟩

theorem witness_FaultsArePrecise : (sample.withFetch 0xF0FF).run = .running ∧ (sample.withFetch 0xF0FF).serving = none ∧
    ∃ t, step (sample.withFetch 0xF0FF) = .next t ∧ t.run = .faulted := ⟨rfl, rfl, _, rfl, rfl⟩

theorem witness_MemReadPollsOnlyAtKbdr : 0xFE01#16 ≠ 0xFE02#16 ∧ 0xFE00#16 ≠ 0xFE02#16 ∧ sample.mem.wf ∧
    sample.input.consult.1 = some 0x41 ∧ untyped.mem.wf ∧ untyped.input.consult.1 = none := by decide

/-- Also the witness of MemWriteIsPlainEverywhere and the three store results. -/
theorem witness_canonicalMemory : sample.mem.wf ∧ (sample.poke 0x4000 0x0000).mem.wf := by decide

theorem witness_NextFetchSeesTheStore : sample.mem.wf ∧
    (∃ t, exec (.st 0 0) sample = .next t ∧ storeAddr (.st 0 0) sample = some t.pc ∧ t.pc ≠ 0xFE02#16) ∧
    (sample.poke 0x3001 0x3000).mem.wf ∧ (∃ t, exec (.sti 0 1) (sample.poke 0x3001 0x3000) = .next t ∧
      storeAddr (.sti 0 1) (sample.poke 0x3001 0x3000) = some t.pc ∧ t.pc ≠ 0xFE02#16) ∧
    ∃ t, exec (.str 1 0 0) (sample.setPc 0x4000) = .next t ∧
      storeAddr (.str 1 0 0) (sample.setPc 0x4000) = some t.pc ∧ t.pc ≠ 0xFE02#16 :=
  ⟨by decide, ⟨_, rfl, by decide, by decide⟩, by decide, ⟨_, rfl, by decide, by decide⟩, _, rfl, by decide, by decide⟩

/-- Of GetcTakesOneCharacter and InPromptsThenTakesOneCharacter, both clauses. -/
theorem witness_characterOrNone : sample.input.consult.1 = some 0x41 ∧ untyped.input.consult.1 = none := by decide

/-- The sample's string, two words long. -/
theorem sample_string : ∀ k w, [0x0048#16, 0x4149#16][k]? = some w →
    sample.peek (sample.reg 0 + BitVec.ofNat 16 k) = w ∧ w ≠ 0x0000#16 := by
  intro k w h
  match k, h with
  | 0, h => cases h; decide
  | 1, h => cases h; decide
  | _ + 2, h => simp at h

/-- Of PutsEmitsTheLowBytes and PutspEmitsBothBytes: a string of two words, and the empty string of reset memory. -/
theorem witness_strings :
    (∀ k w, [0x0048#16, 0x4149#16][k]? = some w →
      sample.peek (sample.reg 0 + BitVec.ofNat 16 k) = w ∧ w ≠ 0x0000#16) ∧
    sample.peek (sample.reg 0 + BitVec.ofNat 16 2) = 0x0000#16 ∧
    (∀ k, k ≤ 2 → sample.reg 0 + BitVec.ofNat 16 k ≠ 0xFE02#16) ∧
    (∀ k w, ([] : List Word)[k]? = some w →
      State.reset.peek (State.reset.reg 0 + BitVec.ofNat 16 k) = w ∧ w ≠ 0x0000#16) ∧
    State.reset.peek (State.reset.reg 0 + BitVec.ofNat 16 0) = 0x0000#16 ∧
    (∀ k, k ≤ 0 → State.reset.reg 0 + BitVec.ofNat 16 k ≠ 0xFE02#16) := by
  refine ⟨sample_string, by decide, by decide, fun k w h => by simp at h, by decide, by decide⟩

/-- Memory with the word 1 at every address from `a` on, `n` of them. -/
def ones : Nat → Nat → Memory
  | _, 0 => []
  | a, n + 1 => (a, 1#16) :: ones (a + 1) n

theorem ones_read (n a b : Nat) (h1 : a ≤ b) (h2 : b < a + n) : (ones a n).read b = 1#16 := by
  induction n generalizing a with
  | zero => omega
  | succ n ih =>
    simp only [ones, Memory.read]
    split
    · rfl
    · exact ih (a + 1) (by omega) (by omega)

/-- Memory of ones and a host with the characters 0x41 and 0x42, inside a PUTS. -/
def endless : State :=
  { State.resetWith (ones 0 65536) { answers := [some 0x41, some 0x42], host := 0, asked := 0 } with
    serving := some (.string .puts 0xFFFF) }

theorem witness_NoTerminatorKeepsServing : (∀ a, endless.peek a ≠ 0x0000#16) ∧ endless.input.consult.1 = some 0x41#8 ∧
    0x41#8 ≠ 0x00#8 ∧ endless.run = .running ∧ endless.serving = some (.string .puts 0xFFFF) := by
  refine ⟨fun a => ?_, rfl, by decide, rfl, rfl⟩
  have e : endless.peek a = 1#16 := ones_read 65536 0 a.toNat (Nat.zero_le _) (by have := a.isLt; omega)
  rw [e]
  decide

/-- The sample's string, as the run of the rules that StringServicesRunTheRulesLoop speaks of. -/
theorem witness_StringServicesRunTheRulesLoop : sample.run = .running ∧ 2 < 65536 ∧
    (∃ t, StringRun (stringChars .putsp) 2 (sample.reg 0) { sample with serving := none } t) ∧
    endless.run = .running ∧ endless.serving = some (.string .puts 0xFFFF) :=
  ⟨rfl, by decide, ⟨_, .more _ _ _ _ (by decide) (.more _ _ _ _ (by decide) (.stop _ _ (by decide)))⟩, rfl, rfl⟩

theorem witness_UnknownTrapVectorFaults : (0x1F#8).toNat < 0x20 ∧ 0x25 < (0x26#8).toNat := by decide

theorem witness_OnlyTheDestinationRegisterIsWritten : (∃ t, exec (.ld 0 5) sample = .next t) ∧
    destReg (.ld 0 5) ≠ some 1 ∧ (∃ t, exec (.trap 0x21) sample = .next t) ∧ destReg (.trap 0x21) ≠ some 0 :=
  ⟨⟨_, rfl⟩, by decide, ⟨_, rfl⟩, by decide⟩

theorem witness_OnlyControlTransfersWritePc : (∃ t, exec (.sti 0 5) sample = .next t) ∧ writesPc (.sti 0 5) = false :=
  ⟨⟨_, rfl⟩, rfl⟩

theorem witness_OnlyTheStoredWordChanges : sample.mem.wf ∧ (∃ t, exec (.st 0 0) sample = .next t) ∧
    storeAddr (.st 0 0) sample ≠ some 0x3001 ∧ ¬ mayPoll (.st 0 0) sample ∧
    (∃ t, exec (.ld 0 0) (sample.setPc 0xFE02) = .next t) ∧ mayPoll (.ld 0 0) (sample.setPc 0xFE02) ∧
    storeAddr (.ld 0 0) (sample.setPc 0xFE02) ≠ some 0xFE01 ∧ 0xFE01#16 ≠ 0xFE00#16 ∧ 0xFE01#16 ≠ 0xFE02#16 :=
  ⟨by decide, ⟨_, rfl⟩, by decide, id, ⟨_, rfl⟩, rfl, by decide, by decide, by decide⟩

theorem witness_OutputOnlyGrows : (∃ t, exec .out sample = .next t) ∧ (∃ t, exec .getc sample = .next t) ∧
    emits .getc = false := ⟨⟨_, rfl⟩, ⟨_, rfl⟩, rfl⟩

theorem witness_InputOnlyConsumed : (∃ t, exec .getc sample = .next t) ∧ (∃ t, exec (.ld 0 0) sample = .next t) ∧
    ¬ mayPoll (.ld 0 0) sample ∧ ¬ takesChar (.ld 0 0) ∧ (∃ t, exec .out sample = .next t) ∧ ¬ longService .out :=
  ⟨⟨_, rfl⟩, ⟨_, rfl⟩, (by decide : pcRel sample 0#9 ≠ kbPollAddr), id, ⟨_, rfl⟩, id⟩

end Sys2Proof.Tests
end

section
/-! PROOFS. Sign extension (R53): the four facts of `sextRule` hold at every width up to 16, since a bit vector keeps
its signed value when it is widened. -/

namespace Sys2Proof.Machine

variable {n : Nat}

/-- R53's condition "bit N-1 of `v` is 0" as the comparison `sextRule` writes. -/
theorem msb_eq_false_iff_toNat_lt (v : BitVec n) : v.msb = false ↔ v.toNat < 2 ^ (n - 1) := by
  rw [BitVec.msb_eq_decide, decide_eq_false_iff_not, Nat.not_le]

theorem toInt_sext (hn : n ≤ 16) (v : BitVec n) : (sext v).toInt = v.toInt :=
  BitVec.toInt_signExtend_of_le hn

/-- R53's formula: a set top bit fills bits 15 down to N with ones. -/
theorem toNat_sext (hn : n ≤ 16) (v : BitVec n) :
    (sext v).toNat = if v.toNat < 2 ^ (n - 1) then v.toNat else v.toNat + (65536 - 2 ^ n) := by
  have hwide : (sext v).toNat = v.toNat + if v.msb then 65536 - 2 ^ n else 0 := by
    rw [sext, BitVec.toNat_signExtend, BitVec.toNat_setWidth_of_le hn]
  rw [hwide]
  simp only [← msb_eq_false_iff_toNat_lt]
  cases v.msb <;> rfl

/-- The signed value a field stands for, by its top bit. -/
theorem toInt_eq_of_topBit (v : BitVec n) :
    v.toInt = if v.toNat < 2 ^ (n - 1) then (v.toNat : Int) else (v.toNat : Int) - 2 ^ n := by
  rw [BitVec.toInt_eq_msb_cond]
  simp only [← msb_eq_false_iff_toNat_lt]
  cases v.msb
  · rfl
  · simp

/-- R53 at every width that fits a word. -/
theorem sextRule_of_le (hn : n ≤ 16) : sextRule n := by
  intro v
  rw [toInt_sext hn]
  exact ⟨toNat_sext hn v, toInt_eq_of_topBit v, BitVec.le_toInt v, BitVec.toInt_le⟩

end Sys2Proof.Machine

open Sys2Proof.Machine in
/-- Settles O7: the four widths of R53 are instances of the rule for every width up to 16. -/
theorem signExtensionAtTheFourWidths : Obligations.SignExtensionAtTheFourWidths :=
  ⟨sextRule_of_le (by decide), sextRule_of_le (by decide), sextRule_of_le (by decide), sextRule_of_le (by decide)⟩
end

section
/-! PROOFS. The flag-update rule (R74): the flag of a value by its sign, and which value each instruction flags. -/

namespace Sys2Proof.Machine

/-- R74's test of bit 15 is the test of the sign. -/
theorem flagOf_eq_of_sign (v : Word) :
    flagOf v = if v.toInt = 0 then flagZro else if v.toInt < 0 then flagNeg else flagPos := by
  have hzero : v = 0x0000#16 ↔ v.toInt = 0 := BitVec.toInt_inj.symm
  have hneg : v.getLsbD 15 = true ↔ v.toInt < 0 := by
    rw [← BitVec.msb_eq_getLsbD_last, BitVec.msb_eq_toInt, decide_eq_true_iff]
  simp only [flagOf, hzero, hneg]

/-- The three flags are exclusive and follow the sign. -/
theorem flagOf_eq_iff_sign (v : Word) :
    (flagOf v = flagZro ↔ v.toInt = 0) ∧ (flagOf v = flagNeg ↔ v.toInt < 0) ∧ (flagOf v = flagPos ↔ 0 < v.toInt) := by
  rw [flagOf_eq_of_sign]
  rcases Int.lt_trichotomy v.toInt 0 with h | h | h
  · simp [h, h.ne, h.not_gt, flagZro, flagNeg, flagPos]
  · simp [h, flagZro, flagNeg, flagPos]
  · simp [h, h.ne', h.not_gt, flagZro, flagNeg, flagPos]

theorem writeResult_cond (dr : Reg) (v : Word) (s : State) :
    (writeResult dr v s).cond = flagOf ((writeResult dr v s).reg dr) := by
  simp [writeResult]

/-- Each flag-updating instruction ends by writing a result to its destination register. -/
theorem exec_of_setsCond {i : Instr} (hi : setsCond i = true) (s : State) :
    ∃ dr v u, destReg i = some dr ∧ exec i s = .next (writeResult dr v u) := by
  cases i with
  | addReg | addImm | andReg | andImm | not | ld | ldi | ldr | lea => exact ⟨_, _, _, rfl, rfl⟩
  | _ => cases hi

theorem setsCond_trapInstr (v : BitVec 8) : setsCond (trapInstr v) = false := by
  revert v; decide

/-- Every instruction but TRAP, whose services are instructions of their own, leaves `cond` alone if it is not one of
the flag-updating ones. -/
theorem exec_cond_of_not_trap {i : Instr} (hi : setsCond i = false) (htrap : ∀ v, i ≠ .trap v) {s t : State}
    (h : exec i s = .next t) : t.cond = s.cond := by
  cases i with
  | trap v => exact absurd rfl (htrap v)
  | br nzp off9 =>
    cases h
    split <;> rfl
  | st | str | jmp | jsr | jsrr | out | halt | rti | res =>
    cases h
    rfl
  | sti sr off9 =>
    cases h
    exact memRead_cond (pcRel s off9) s
  | getc =>
    cases h
    obtain ⟨-, hcond, -⟩ := awaitChar_frame .getc s
    exact hcond
  | inp =>
    cases h
    obtain ⟨-, hcond, -⟩ := awaitChar_frame .inp (emit Config.inPrompt s)
    exact hcond
  | puts =>
    cases h
    obtain ⟨-, -, hcond, -⟩ := stringService_frame .puts (s.reg 0) s
    exact hcond
  | putsp =>
    cases h
    obtain ⟨-, -, hcond, -⟩ := stringService_frame .putsp (s.reg 0) s
    exact hcond
  | _ => cases hi

/-- Only the flag-updating instructions write `cond` (R14). -/
theorem exec_cond_of_not_setsCond {i : Instr} (hi : setsCond i = false) {s t : State} (h : exec i s = .next t) :
    t.cond = s.cond := by
  by_cases htrap : ∃ v, i = .trap v
  · obtain ⟨v, rfl⟩ := htrap
    rcases exec_trap_cases v s with ⟨-, hservice, heq⟩ | ⟨-, heq⟩ <;> rw [heq] at h
    · exact exec_cond_of_not_trap (setsCond_trapInstr v) hservice h
    · cases h
      rfl
  · exact exec_cond_of_not_trap hi (not_exists.mp htrap) h

end Sys2Proof.Machine

open Sys2Proof.Machine in
/-- Settles O18: a flag-updating instruction ends in `writeResult`, and every other one keeps `cond`. -/
theorem flagsFollowTheWrittenResult : Obligations.FlagsFollowTheWrittenResult := by
  refine ⟨fun v s => rfl, flagOf_eq_iff_sign, fun i s t h => ?_⟩
  split
  next hi =>
    obtain ⟨dr, v, u, hdr, hexec⟩ := exec_of_setsCond hi s
    cases hexec.symm.trans h
    exact ⟨dr, hdr, writeResult_cond dr v u⟩
  next hi => exact exec_cond_of_not_setsCond (Bool.eq_false_iff.mpr hi) h
end

section
/-! PROOFS. The encoding (30_encoding.md): words compared field by field. A word decodes to a well-formed instruction
exactly when it agrees with the encoding in the fields that the instruction's format uses. -/

namespace Sys2Proof.Laws

/-- Two words hold the same value in each of these fields, given by lowest bit and width. -/
def AgreeOn (fields : List (Nat × Nat)) (v w : Word) : Prop :=
  ∀ f ∈ fields, v.extractLsb' f.1 f.2 = w.extractLsb' f.1 f.2

@[simp] theorem agreeOn_nil (v w : Word) : AgreeOn [] v w := fun _ hf => nomatch hf

@[simp] theorem agreeOn_cons (f : Nat × Nat) (fs : List (Nat × Nat)) (v w : Word) :
    AgreeOn (f :: fs) v w ↔ v.extractLsb' f.1 f.2 = w.extractLsb' f.1 f.2 ∧ AgreeOn fs v w :=
  List.forall_mem_cons

theorem extract_eq_iff (v w : Word) (j l : Nat) :
    v.extractLsb' j l = w.extractLsb' j l ↔ ∀ k, j ≤ k → k < j + l → v.getLsbD k = w.getLsbD k := by
  refine ⟨fun h k hjk hkl => ?_, fun h => ?_⟩
  · have := congrArg (·.getLsbD (k - j)) h
    simpa [hjk, show k - j < l by omega] using this
  · ext k hk
    simpa using h (j + k) (by omega) (by omega)

/-- The fields cover exactly the bits of the mask. -/
def Covers (fields : List (Nat × Nat)) (mask : Word) : Prop :=
  ∀ k < 16, mask.getLsbD k = true ↔ ∃ f ∈ fields, f.1 ≤ k ∧ k < f.1 + f.2

/-- Words are equal under a mask exactly when they agree in the fields that cover it. -/
theorem Covers.and_eq_and_iff {fields : List (Nat × Nat)} {mask : Word} (hc : Covers fields mask) (v w : Word) :
    v &&& mask = w &&& mask ↔ AgreeOn fields v w := by
  have hbits : v &&& mask = w &&& mask ↔ ∀ k < 16, mask.getLsbD k = true → v.getLsbD k = w.getLsbD k := by
    rw [BitVec.eq_of_getLsbD_eq_iff]
    refine forall₂_congr fun k _ => ?_
    rw [BitVec.getLsbD_and, BitVec.getLsbD_and]
    cases mask.getLsbD k <;> simp
  rw [hbits]
  refine ⟨fun h f hf => (extract_eq_iff v w f.1 f.2).mpr fun k hjk hkl => ?_, fun h k hk hmask => ?_⟩
  · by_cases hk : k < 16
    · exact h k hk ((hc k hk).mpr ⟨f, hf, hjk, hkl⟩)
    · rw [BitVec.getLsbD_of_ge v k (by omega), BitVec.getLsbD_of_ge w k (by omega)]
  · obtain ⟨f, hf, hjk, hkl⟩ := (hc k hk).mp hmask
    exact (extract_eq_iff v w f.1 f.2).mp (h f hf) k hjk hkl

theorem Covers.xor_and_eq_zero_iff {fields : List (Nat × Nat)} {mask : Word} (hc : Covers fields mask) (v w : Word) :
    (v ^^^ w) &&& mask = 0x0000#16 ↔ AgreeOn fields v w := by
  have hdistrib : (v ^^^ w) &&& mask = (v &&& mask) ^^^ (w &&& mask) := by
    ext k hk
    simp [Bool.and_xor_distrib_right]
  rw [hdistrib, BitVec.xor_eq_zero_iff, hc.and_eq_and_iff]

/-- The fields that the format of an instruction uses (R55). -/
def usedFields : Instr → List (Nat × Nat)
  | .br _ _ | .ld _ _ | .st _ _ | .ldi _ _ | .sti _ _ | .lea _ _ => [(12, 4), (9, 3), (0, 9)]
  | .addReg _ _ _ | .andReg _ _ _ => [(12, 4), (9, 3), (6, 3), (5, 1), (0, 3)]
  | .addImm _ _ _ | .andImm _ _ _ => [(12, 4), (9, 3), (6, 3), (5, 1), (0, 5)]
  | .jsr _ => [(12, 4), (11, 1), (0, 11)]
  | .jsrr _ => [(12, 4), (11, 1), (6, 3)]
  | .ldr _ _ _ | .str _ _ _ => [(12, 4), (9, 3), (6, 3), (0, 6)]
  | .not _ _ => [(12, 4), (9, 3), (6, 3)]
  | .jmp _ => [(12, 4), (6, 3)]
  | .rti | .res => [(12, 4)]
  | .trap _ | .getc | .out | .puts | .inp | .putsp | .halt => [(12, 4), (0, 8)]

/-- The used fields are the bits that are not ignored (R58). -/
theorem usedFields_covers (i : Instr) : Covers (usedFields i) (~~~(ignoredBits i)) := by
  cases i <;> simp only [ignoredBits, usedFields, Covers] <;> decide

/-- The decoder on a word's fields (R52). -/
theorem decode_eq (w : Word) : decode w = instrOfFields
    { opcode := opcodeTag (w.extractLsb' 12 4), dr := w.extractLsb' 9 3, sr1 := w.extractLsb' 6 3
      immflag := w.extractLsb' 5 1 == 1#1, sr2 := w.extractLsb' 0 3, imm5 := w.extractLsb' 0 5
      off6 := w.extractLsb' 0 6, off9 := w.extractLsb' 0 9, off11 := w.extractLsb' 0 11
      longflag := w.extractLsb' 11 1 == 1#1, nzp := w.extractLsb' 9 3, trapvect8 := w.extractLsb' 0 8 } := by
  simp only [decode, decodeFields, BitVec.getLsbD_eq_extractLsb']

/-- Every word with the used fields of a well-formed instruction's encoding decodes to that instruction. -/
theorem decode_of_agreeOn {i : Instr} (hi : i.wellFormed = true) {w : Word}
    (h : AgreeOn (usedFields i) w (encode i)) : decode w = i := by
  rw [decode_eq]
  cases i
  all_goals
    simp (disch := decide) only [usedFields, encode, agreeOn_cons, agreeOn_nil, and_true, extract_all, Nat.reduceSub,
      BitVec.extractLsb'_append_eq_of_le, BitVec.extractLsb'_append_eq_of_add_le] at h
    simp only [h]
  case trap v =>
    rcases Machine.trapInstr_cases v with ⟨hv, -⟩ | ⟨-, hv⟩
    · simp [Instr.wellFormed, hv] at hi
    · exact hv
  all_goals rfl

/-- The opcode number of a tag (R56, D1). -/
def opcodeNumber : Opcode → BitVec 4
  | .br => 0x0 | .add => 0x1 | .ld => 0x2 | .st => 0x3 | .jsr => 0x4 | .and => 0x5 | .ldr => 0x6 | .str => 0x7
  | .rti => 0x8 | .not => 0x9 | .ldi => 0xA | .sti => 0xB | .jmp => 0xC | .res => 0xD | .lea => 0xE | .trap => 0xF

theorem opcodeTag_eq_iff (n : BitVec 4) (t : Opcode) : opcodeTag n = t ↔ n = opcodeNumber t := by
  revert n
  cases t <;> decide

/-- Every vector's instruction is well-formed and is written as TRAP with that vector. -/
theorem trapInstr_encoding : ∀ v : BitVec 8, (trapInstr v).wellFormed = true ∧
    usedFields (trapInstr v) = [(12, 4), (0, 8)] ∧ encode (trapInstr v) = 0xF#4 ++ 0#4 ++ v := by
  decide

theorem instrOfFields_wellFormed (f : Fields) : (instrOfFields f).wellFormed = true := by
  unfold instrOfFields
  cases f.opcode with
  | trap =>
    obtain ⟨hwf, -⟩ := trapInstr_encoding f.trapvect8
    exact hwf
  | add => cases f.immflag <;> rfl
  | and => cases f.immflag <;> rfl
  | jsr => cases f.longflag <;> rfl
  | _ => rfl

theorem decode_wellFormed (w : Word) : (decode w).wellFormed = true := instrOfFields_wellFormed _

/-- A word agrees in every used field with the encoding of the instruction it decodes to. -/
theorem agreeOn_encode_decode (w : Word) : AgreeOn (usedFields (decode w)) w (encode (decode w)) := by
  have hbit : ∀ b : BitVec 1, ¬ (b == 1#1) = true → b = 0#1 := by decide
  obtain ⟨-, htrapFields, htrapEncode⟩ := trapInstr_encoding (w.extractLsb' 0 8)
  rw [decode_eq]
  cases htag : opcodeTag (w.extractLsb' 12 4)
  all_goals
    have hnum := (opcodeTag_eq_iff _ _).mp htag
    simp only [instrOfFields, htrapFields, htrapEncode]
  any_goals split
  all_goals
    simp (disch := decide) only [usedFields, encode, agreeOn_cons, agreeOn_nil, and_true, extract_all, Nat.reduceSub,
      BitVec.extractLsb'_append_eq_of_le, BitVec.extractLsb'_append_eq_of_add_le, hnum, opcodeNumber]
    simp_all

end Sys2Proof.Laws

open Sys2Proof Laws

/-- Settles O1: the encoding agrees with itself in every used field. -/
theorem decodeEncodeRoundTrip : Obligations.DecodeEncodeRoundTrip :=
  fun _ hi => decode_of_agreeOn hi fun _ _ => rfl

/-- Settles O2: the used fields are the bits that are not ignored, and a word agrees in them with the encoding of what
it decodes to. -/
theorem encodeDecodeKeepsEveryUsedBit : Obligations.EncodeDecodeKeepsEveryUsedBit := fun w =>
  ⟨decode_wellFormed w, by
    rw [BitVec.xor_comm, (usedFields_covers _).xor_and_eq_zero_iff]
    exact agreeOn_encode_decode w⟩

/-- Settles O3: the flipped word agrees with the word, and so with the encoding of `decode w`, in every used field. -/
theorem ignoredBitsSelectNothing : Obligations.IgnoredBitsSelectNothing := by
  intro w m hm
  have hflip : AgreeOn (usedFields (decode w)) (w ^^^ m) w := by
    rw [← (usedFields_covers _).xor_and_eq_zero_iff, BitVec.xor_comm w m, BitVec.xor_assoc, BitVec.xor_self,
      BitVec.xor_zero]
    exact hm
  exact decode_of_agreeOn (decode_wellFormed w) fun f hf => (hflip f hf).trans (agreeOn_encode_decode w f hf)
end

section
/-! PROOFS. The opcode map (R56): the table's rows as fields of the word, the reserved opcodes, the decoder's outputs as
arithmetic, and the words of the spec's vectors. -/

namespace Sys2Proof.Laws

theorem trapInstr_opcode : ∀ v : BitVec 8, (trapInstr v).opcode = .trap := by decide

theorem instrOfFields_opcode (f : Fields) : (instrOfFields f).opcode = f.opcode := by
  unfold instrOfFields
  cases f.opcode with
  | trap => exact trapInstr_opcode f.trapvect8
  | add => cases f.immflag <;> rfl
  | and => cases f.immflag <;> rfl
  | jsr => cases f.longflag <;> rfl
  | _ => rfl

/-- Bits[15:12] of a word are the opcode number of what it decodes to. -/
theorem decode_opcode_eq_iff (w : Word) (t : Opcode) :
    (decode w).opcode = t ↔ w.extractLsb' 12 4 = opcodeNumber t := by
  rw [← opcodeTag_eq_iff, decode, instrOfFields_opcode]
  rfl

/-- The fields that select the row of an instruction (R56). -/
def rowFields : Instr → List (Nat × Nat)
  | .addReg _ _ _ | .addImm _ _ _ | .andReg _ _ _ | .andImm _ _ _ => [(12, 4), (5, 1)]
  | .jsr _ | .jsrr _ => [(12, 4), (11, 1)]
  | .getc | .out | .puts | .inp | .putsp | .halt => [(12, 4), (0, 8)]
  | .br _ _ | .ld _ _ | .st _ _ | .ldr _ _ _ | .str _ _ _ | .rti | .not _ _ | .ldi _ _ | .sti _ _ | .jmp _ | .res
  | .lea _ _ | .trap _ => [(12, 4)]

theorem rowFields_covers (i : Instr) : Covers (rowFields i) i.row.mask := by
  cases i <;> simp only [rowFields, Instr.row, Covers] <;> decide

theorem rowFields_subset_usedFields (i : Instr) : ∀ f ∈ rowFields i, f ∈ usedFields i := by
  cases i <;> simp only [rowFields, usedFields] <;> decide

theorem row_mem (i : Instr) : i.row ∈ opcodeRows ∨ i.row ∈ serviceRows := by
  cases i <;> simp only [Instr.row] <;> decide

/-- The encoding of an instruction belongs to the instruction's row. -/
theorem encode_and_rowMask (i : Instr) : encode i &&& i.row.mask = i.row.pattern := by
  have hpattern : ∀ r ∈ opcodeRows ++ serviceRows, r.pattern &&& r.mask = r.pattern := by decide
  rw [← hpattern i.row (List.mem_append.mpr (row_mem i)), (rowFields_covers i).and_eq_and_iff]
  cases i
  all_goals
    simp (disch := decide) only [Instr.row, rowFields, encode, agreeOn_cons, agreeOn_nil, and_true, extract_all,
      Nat.reduceSub, BitVec.extractLsb'_append_eq_of_le, BitVec.extractLsb'_append_eq_of_add_le]
    decide

/-- A word belongs to the row of the instruction it decodes to. -/
theorem row_decode_matches (w : Word) : (decode w).row.matches w = true := by
  have hagree : AgreeOn (rowFields (decode w)) w (encode (decode w)) := fun f hf =>
    agreeOn_encode_decode w f (rowFields_subset_usedFields _ f hf)
  rw [TableRow.matches, ((rowFields_covers _).and_eq_and_iff _ _).mpr hagree, encode_and_rowMask, beq_self_eq_true]

/-- The first nineteen rows look at the opcode, bit 11 and bit 5 only. -/
theorem matches_congr {r : TableRow} (hr : r ∈ opcodeRows) {v w : Word}
    (h : AgreeOn [(12, 4), (11, 1), (5, 1)] v w) : r.matches v = r.matches w := by
  have hcovers : Covers [(12, 4), (11, 1), (5, 1)] 0xF820#16 := by
    unfold Covers
    decide
  have hmask : ∀ r ∈ opcodeRows, r.mask = 0xF820#16 &&& r.mask := by decide
  rw [TableRow.matches, TableRow.matches, hmask r hr, ← BitVec.and_assoc, ← BitVec.and_assoc,
    (hcovers.and_eq_and_iff v w).mpr h]

/-- Exactly one of the first nineteen rows matches, by the opcode, bit 11 and bit 5. -/
theorem one_row_matches (w : Word) : (opcodeRows.filter (fun r => r.matches w)).length = 1 := by
  have hselect : ∀ (n : BitVec 4) (l m : BitVec 1),
      (opcodeRows.filter (fun r => r.matches (n ++ l ++ 0#5 ++ m ++ 0#5))).length = 1 := by decide
  rw [← hselect (w.extractLsb' 12 4) (w.extractLsb' 11 1) (w.extractLsb' 5 1)]
  congr 1
  refine List.filter_congr fun r hr => matches_congr hr ?_
  simp (disch := decide) only [agreeOn_cons, agreeOn_nil, and_true, extract_all, Nat.reduceSub,
    BitVec.extractLsb'_append_eq_of_le, BitVec.extractLsb'_append_eq_of_add_le]

/-- ReservedOpcode is raised with its own number by the instructions of the two reserved opcodes only. -/
theorem faultOf_eq_reservedOpcode_iff (i : Instr) (op : BitVec 4) :
    Machine.faultOf i = some (.reservedOpcode op) ↔
      (i.opcode = .rti ∨ i.opcode = .res) ∧ opcodeNumber i.opcode = op := by
  cases i with
  | rti | res => simp [Machine.faultOf, Instr.opcode, opcodeNumber]
  | trap v =>
    simp only [Machine.faultOf, Instr.opcode]
    split <;> simp
  | _ => simp [Machine.faultOf, Instr.opcode]

/-- Executing a reserved instruction changes only `run` (R128, R129). -/
theorem exec_of_reserved {i : Instr} (h : i.opcode = .rti ∨ i.opcode = .res) (s : Machine.State) :
    Machine.exec i s = .next { s with run := .faulted } := by
  cases i with
  | rti | res => rfl
  | _ => simp [Instr.opcode] at h

theorem toNat_extract (w : Word) (j l : Nat) : (w.extractLsb' j l).toNat = w.toNat / 2 ^ j % 2 ^ l := by
  rw [BitVec.extractLsb'_toNat, Nat.shiftRight_eq_div_pow]

theorem getLsbD_eq_div_mod (w : Word) (k : Nat) : w.getLsbD k = decide (w.toNat / 2 ^ k % 2 = 1) :=
  Nat.testBit_eq_decide_div_mod_eq

end Sys2Proof.Laws

open Sys2Proof Laws Machine

/-- Settles O8: the reserved opcodes by their numbers. -/
theorem onlyReservedWordsRaiseReservedOpcode : Obligations.OnlyReservedWordsRaiseReservedOpcode := by
  intro w s
  have hrti := decode_opcode_eq_iff w .rti
  have hres := decode_opcode_eq_iff w .res
  refine ⟨fun h => exec_of_reserved (.inl (hrti.mpr h)) s, fun h => exec_of_reserved (.inr (hres.mpr h)) s,
    fun op => ?_⟩
  have hnumber := (decode_opcode_eq_iff w _).mp rfl
  rw [faultOf_eq_reservedOpcode_iff, hrti, hres, ← hnumber, and_comm]
  refine and_congr_right ?_
  rintro rfl
  rfl

/-- Settles O4: the rows of a word are told by its fields. -/
theorem opcodeRowsPartitionTheWords : Obligations.OpcodeRowsPartitionTheWords := fun w =>
  ⟨one_row_matches w, row_decode_matches w, row_mem _⟩

/-- Settles O5, word by word. -/
theorem specVectorWordsDecode : Obligations.SpecVectorWordsDecode := by
  unfold Obligations.SpecVectorWordsDecode
  decide

/-- Settles O6: a field is a quotient by its position and a remainder by its width. -/
theorem decoderFieldPositions : Obligations.DecoderFieldPositions := by
  intro w
  have hopcode : w.extractLsb' 12 4 = BitVec.ofNat 4 (w.toNat / 4096) := by
    apply BitVec.eq_of_toNat_eq
    rw [toNat_extract, BitVec.toNat_ofNat]
    rfl
  simp only [decodeFields, hopcode, toNat_extract, getLsbD_eq_div_mod]
  norm_num
end

section
/-! PROOFS. What the shared operations leave, one lemma per field, and TRAP as the instruction it acts as: the layer
under the frames over all instructions. -/

namespace Sys2Proof.Machine

section fields
variable (dr q : Reg) (a b v : Word) (k : CharService) (sk : StringKind) (s : State)

@[simp] theorem writeResult_pc : (writeResult dr v s).pc = s.pc := rfl
@[simp] theorem writeResult_run : (writeResult dr v s).run = s.run := rfl
@[simp] theorem writeResult_mem : (writeResult dr v s).mem = s.mem := rfl
@[simp] theorem writeResult_input : (writeResult dr v s).input = s.input := rfl
@[simp] theorem writeResult_out : (writeResult dr v s).out = s.out := rfl
@[simp] theorem writeResult_serving : (writeResult dr v s).serving = s.serving := rfl
@[simp] theorem writeResult_peek : (writeResult dr v s).peek a = s.peek a := rfl

theorem writeResult_reg_of_ne {dr q : Reg} (h : dr ≠ q) : (writeResult dr v s).reg q = s.reg q :=
  (setReg_reg s dr q v).trans (if_neg h)

@[simp] theorem loadTo_pc : (loadTo dr a s).pc = s.pc := memRead_pc a s
@[simp] theorem loadTo_run : (loadTo dr a s).run = s.run := memRead_run a s
@[simp] theorem loadTo_mem : (loadTo dr a s).mem = (memRead a s).2.mem := rfl
@[simp] theorem loadTo_input : (loadTo dr a s).input = (memRead a s).2.input := rfl
@[simp] theorem loadTo_out : (loadTo dr a s).out = s.out := memRead_out a s
@[simp] theorem loadTo_serving : (loadTo dr a s).serving = s.serving := memRead_serving a s
@[simp] theorem loadTo_peek : (loadTo dr a s).peek b = (memRead a s).2.peek b := rfl

@[simp] theorem awaitChar_pc : (awaitChar k s).pc = s.pc := by
  obtain ⟨hpc, -⟩ := awaitChar_frame k s; exact hpc
@[simp] theorem awaitChar_cond : (awaitChar k s).cond = s.cond := by
  obtain ⟨-, hcond, -⟩ := awaitChar_frame k s; exact hcond
@[simp] theorem awaitChar_run : (awaitChar k s).run = s.run := by
  obtain ⟨-, -, hrun, -⟩ := awaitChar_frame k s; exact hrun
@[simp] theorem awaitChar_mem : (awaitChar k s).mem = s.mem := by
  obtain ⟨-, -, -, hmem, -⟩ := awaitChar_frame k s; exact hmem
@[simp] theorem awaitChar_input : (awaitChar k s).input = s.input.consult.2 := by
  obtain ⟨-, -, -, -, hinput, -⟩ := awaitChar_frame k s; exact hinput
@[simp] theorem awaitChar_peek : (awaitChar k s).peek a = s.peek a := by
  rw [State.peek, awaitChar_mem, State.peek]

@[simp] theorem stringService_pc : (stringService sk a s).pc = s.pc := by
  obtain ⟨-, hpc, -⟩ := stringService_frame sk a s; exact hpc
@[simp] theorem stringService_cond : (stringService sk a s).cond = s.cond := by
  obtain ⟨-, -, hcond, -⟩ := stringService_frame sk a s; exact hcond
@[simp] theorem stringService_run : (stringService sk a s).run = s.run := by
  obtain ⟨-, -, -, hrun⟩ := stringService_frame sk a s; exact hrun
@[simp] theorem stringService_reg : (stringService sk a s).reg q = s.reg q := by
  obtain ⟨hregs, -⟩ := stringService_frame sk a s
  rw [State.reg, hregs, State.reg]

end fields

/-- `i` does what `j` does, and is classified as `j` is. -/
structure ActsAs (i j : Instr) : Prop where
  exec_eq : ∀ s, exec i s = exec j s
  setsCond_eq : setsCond i = setsCond j
  destReg_eq : destReg i = destReg j
  writesPc_eq : writesPc i = writesPc j
  emits_eq : emits i = emits j
  storeAddr_eq : ∀ s, storeAddr i s = storeAddr j s
  mayPoll_iff : ∀ s, mayPoll i s ↔ mayPoll j s
  takesChar_iff : takesChar i ↔ takesChar j
  longService_iff : longService i ↔ longService j
  halts_iff : (i = .halt ∨ i = .trap 0x25) ↔ j = .halt
  faults_eq : (faultOf i).isSome = (faultOf j).isSome
  br_iff : ∀ nzp off9, i = .br nzp off9 ↔ j = .br nzp off9

theorem ActsAs.refl {i : Instr} (hi : ∀ v, i ≠ .trap v) : ActsAs i i := by
  constructor <;> simp [hi]

/-- The six service vectors (R59). -/
theorem isServiceVector_iff : ∀ v : BitVec 8, isServiceVector v = true ↔
    v = 0x20#8 ∨ v = 0x21#8 ∨ v = 0x22#8 ∨ v = 0x23#8 ∨ v = 0x24#8 ∨ v = 0x25#8 := by
  decide

theorem isServiceVector_eq_false_iff : ∀ v : BitVec 8, isServiceVector v = false ↔
    v ≠ 0x20#8 ∧ v ≠ 0x21#8 ∧ v ≠ 0x22#8 ∧ v ≠ 0x23#8 ∧ v ≠ 0x24#8 ∧ v ≠ 0x25#8 := by
  decide

theorem exec_trap_of_service {v : BitVec 8} (hv : isServiceVector v = true) (s : State) :
    exec (.trap v) s = exec (trapInstr v) s := by
  rcases exec_trap_cases v s with ⟨-, -, h⟩ | ⟨hv', -⟩
  · exact h
  · simp [hv] at hv'

theorem exec_trap_of_not_service {v : BitVec 8} (hv : isServiceVector v = false) (s : State) :
    exec (.trap v) s = .next { s with run := .faulted } := by
  rcases exec_trap_cases v s with ⟨hv', -⟩ | ⟨-, h⟩
  · simp [hv] at hv'
  · exact h

theorem trapInstr_service : trapInstr 0x20#8 = .getc ∧ trapInstr 0x21#8 = .out ∧ trapInstr 0x22#8 = .puts ∧
    trapInstr 0x23#8 = .inp ∧ trapInstr 0x24#8 = .putsp ∧ trapInstr 0x25#8 = .halt :=
  ⟨rfl, rfl, rfl, rfl, rfl, rfl⟩

/-- TRAP acts as the service of its vector, and with any other vector as RTI does: both only fault (R127, R128). -/
theorem trap_actsAs (v : BitVec 8) : ∃ j, (∀ u, j ≠ .trap u) ∧ ActsAs (.trap v) j := by
  cases hv : isServiceVector v with
  | true =>
    refine ⟨trapInstr v, ?_⟩
    have hexec := exec_trap_of_service hv
    rcases (isServiceVector_iff v).mp hv with rfl | rfl | rfl | rfl | rfl | rfl
    all_goals exact ⟨nofun, hexec, rfl, rfl, rfl, rfl, fun _ => rfl, by simp [mayPoll.eq_def, trapInstr_service],
      by simp [takesChar, trapInstr_service], by simp [longService, trapInstr_service], by simp [trapInstr_service],
      rfl, by simp [trapInstr_service]⟩
  | false =>
    have hne := (isServiceVector_eq_false_iff v).mp hv
    refine ⟨.rti, nofun, exec_trap_of_not_service hv, ?_, ?_, ?_, ?_, ?_, ?_, ?_, ?_, ?_, ?_, ?_⟩
    all_goals simp [hne, hv, setsCond, destReg, writesPc, emits, storeAddr, mayPoll.eq_def, takesChar, longService,
      faultOf]

/-- Every instruction acts as one that is not TRAP. -/
theorem exists_actsAs (i : Instr) : ∃ j, (∀ v, j ≠ .trap v) ∧ ActsAs i j := by
  cases i with
  | trap v => exact trap_actsAs v
  | _ => exact ⟨_, fun _ => by simp, .refl fun _ => by simp⟩

end Sys2Proof.Machine
end

section
/-! PROOFS. The frames over all instructions: registers, pc, memory, OUT, INPUT and the run state (R11, R12, R15, R16,
R130). -/

namespace Sys2Proof.Machine

variable {i : Instr} {s t : State}

theorem exec_reg_of_ne {q : Reg} (h : exec i s = .next t) (hq : destReg i ≠ some q) : t.reg q = s.reg q := by
  obtain ⟨j, hj, acts⟩ := exists_actsAs i
  rw [acts.exec_eq] at h
  rw [acts.destReg_eq] at hq
  cases j with
  | trap v => exact absurd rfl (hj v)
  | addReg dr | addImm dr | andReg dr | andImm dr | not dr | lea dr =>
    cases h
    exact writeResult_reg_of_ne _ _ fun e => hq (congrArg some e)
  | ld dr | ldi dr | ldr dr =>
    cases h
    refine (writeResult_reg_of_ne _ _ fun e => hq (congrArg some e)).trans ?_
    simp [indirect]
  | jsr | jsrr =>
    cases h
    exact (setReg_reg s 7 q s.pc).trans (if_neg fun e => hq (congrArg some e))
  | getc =>
    cases h
    obtain ⟨-, -, -, -, -, hreg⟩ := awaitChar_frame .getc s
    exact hreg q fun e => hq (congrArg some e.symm)
  | inp =>
    cases h
    obtain ⟨-, -, -, -, -, hreg⟩ := awaitChar_frame .inp (emit Config.inPrompt s)
    exact hreg q fun e => hq (congrArg some e.symm)
  | br =>
    cases h
    split <;> rfl
  | sti =>
    cases h
    simp [indirect, memWrite]
  | puts | putsp =>
    cases h
    rw [serviceString]
    exact stringService_reg ..
  | st | str | jmp | out | halt | rti | res =>
    cases h
    rfl

theorem exec_pc_of_not_writesPc (h : exec i s = .next t) (hpc : writesPc i = false) : t.pc = s.pc := by
  obtain ⟨j, hj, acts⟩ := exists_actsAs i
  rw [acts.exec_eq] at h
  rw [acts.writesPc_eq] at hpc
  cases j with
  | trap v => exact absurd rfl (hj v)
  | br | jmp | jsr | jsrr => cases hpc
  | ld | ldi | ldr | sti | getc | inp | puts | putsp =>
    cases h
    simp [indirect, memWrite, serviceGetc, serviceIn, serviceString]
  | _ =>
    cases h
    rfl

/-- A read leaves a word alone, the keyboard's too if it does not poll (R34). -/
theorem memRead_peek_of_poll {a b : Word} (hm : s.mem.wf) (hb : a = kbPollAddr → b ≠ kbsrAddr ∧ b ≠ kbdrAddr) :
    (memRead a s).2.peek b = s.peek b := by
  by_cases ha : a = kbPollAddr
  · obtain ⟨hkbsr, hkbdr⟩ := hb ha
    exact memRead_peek a hm hkbsr hkbdr
  · rw [memRead_plain ha]

theorem exec_peek {b : Word} (hm : s.mem.wf) (h : exec i s = .next t) (hstore : storeAddr i s ≠ some b)
    (hpoll : mayPoll i s → b ≠ kbsrAddr ∧ b ≠ kbdrAddr) : t.peek b = s.peek b := by
  obtain ⟨j, hj, acts⟩ := exists_actsAs i
  rw [acts.exec_eq] at h
  rw [acts.storeAddr_eq] at hstore
  rw [acts.mayPoll_iff] at hpoll
  cases j with
  | trap v => exact absurd rfl (hj v)
  | ld | ldr =>
    cases h
    rw [loadTo_peek]
    exact memRead_peek_of_poll hm hpoll
  | ldi dr off9 =>
    have hptr := memRead_peek_of_poll (a := pcRel s off9) hm fun e => hpoll (.inl e)
    have hdata := memRead_peek_of_poll (a := (indirect s off9).1) (memRead_wf (pcRel s off9) hm) fun e => hpoll (.inr e)
    cases h
    rw [loadTo_peek]
    exact hdata.trans hptr
  | st | str =>
    cases h
    exact (poke_peek hm _ b _).trans (if_neg fun e => hstore (congrArg some e.symm))
  | sti sr off9 =>
    have hptr := memRead_peek_of_poll (a := pcRel s off9) hm hpoll
    have hwf := memRead_wf (pcRel s off9) hm
    cases h
    refine (poke_peek hwf _ b _).trans ?_
    rw [if_neg fun e => hstore (congrArg some e.symm)]
    exact hptr
  | puts | putsp =>
    cases h
    obtain ⟨hkbsr, hkbdr⟩ := hpoll trivial
    rw [serviceString]
    obtain ⟨-, hpeek⟩ := stringService_memory _ (s.reg 0) hm
    exact hpeek b hkbsr hkbdr
  | getc | inp =>
    cases h
    exact awaitChar_peek ..
  | br =>
    cases h
    split <;> rfl
  | _ =>
    cases h
    rfl

theorem exec_mem_wf (hm : s.mem.wf) (h : exec i s = .next t) : t.mem.wf := by
  obtain ⟨j, hj, acts⟩ := exists_actsAs i
  rw [acts.exec_eq] at h
  cases j with
  | trap v => exact absurd rfl (hj v)
  | ld | ldr =>
    cases h
    rw [loadTo_mem]
    exact memRead_wf _ hm
  | ldi dr off9 =>
    have hptr := memRead_wf (pcRel s off9) hm
    cases h
    rw [loadTo_mem]
    exact memRead_wf _ hptr
  | st | str =>
    cases h
    exact poke_wf hm ..
  | sti sr off9 =>
    have hptr := memRead_wf (pcRel s off9) hm
    cases h
    exact poke_wf hptr ..
  | puts | putsp =>
    cases h
    rw [serviceString]
    obtain ⟨hwf, -⟩ := stringService_memory _ (s.reg 0) hm
    exact hwf
  | getc | inp =>
    cases h
    simpa [serviceGetc, serviceIn] using hm
  | br =>
    cases h
    split <;> exact hm
  | _ =>
    cases h
    exact hm

/-- GETC appends nothing to OUT, IN the character it takes, if one comes (R121, R124). -/
theorem awaitChar_out (k : CharService) (s : State) :
    ∃ bs, (awaitChar k s).out = s.out ++ bs ∧ (k = .getc → bs = []) := by
  rcases awaitChar_cases k s with ⟨c, -, h⟩ | ⟨-, h⟩ <;> rw [h]
  · cases k with
    | getc => exact ⟨[], (List.append_nil _).symm, fun _ => rfl⟩
    | inp => exact ⟨[c], rfl, nofun⟩
  · exact ⟨[], (List.append_nil _).symm, fun _ => rfl⟩

theorem stringLoop_out (chars : Word → List Byte) (n : Nat) (a : Word) (s : State) :
    ∃ bs, (stringLoop chars n a s).2.out = s.out ++ bs := by
  induction n generalizing a s with
  | zero => exact ⟨[], (List.append_nil _).symm⟩
  | succ n ih =>
    rw [stringLoop_succ]
    split
    · exact ⟨[], by simp⟩
    · obtain ⟨bs, h⟩ := ih (a + 1) (emit (chars (memRead a s).1) (memRead a s).2)
      exact ⟨chars (memRead a s).1 ++ bs, by rw [h, emit_out, memRead_out, List.append_assoc]⟩

theorem stringService_out (k : StringKind) (a : Word) (s : State) :
    ∃ bs, (stringService k a s).out = s.out ++ bs :=
  stringLoop_out (stringChars k) stringLap a { s with serving := none }

theorem exec_out (h : exec i s = .next t) : ∃ bs, t.out = s.out ++ bs ∧ (emits i = false → bs = []) := by
  obtain ⟨j, hj, acts⟩ := exists_actsAs i
  rw [acts.exec_eq] at h
  rw [acts.emits_eq]
  cases j with
  | trap v => exact absurd rfl (hj v)
  | out | halt =>
    cases h
    exact ⟨_, rfl, nofun⟩
  | puts | putsp =>
    cases h
    rw [serviceString]
    obtain ⟨bs, hout⟩ := stringService_out _ (s.reg 0) s
    exact ⟨bs, hout, nofun⟩
  | getc =>
    cases h
    obtain ⟨bs, hout, hnone⟩ := awaitChar_out .getc s
    exact ⟨bs, hout, fun _ => hnone rfl⟩
  | inp =>
    cases h
    obtain ⟨bs, hout, -⟩ := awaitChar_out .inp (emit Config.inPrompt s)
    exact ⟨Config.inPrompt ++ bs, hout.trans (by simp), nofun⟩
  | ld | ldi | ldr | sti =>
    cases h
    exact ⟨[], by simp [indirect, memWrite], fun _ => rfl⟩
  | br =>
    cases h
    exact ⟨[], by split <;> simp, fun _ => rfl⟩
  | _ =>
    cases h
    exact ⟨[], (List.append_nil _).symm, fun _ => rfl⟩

/-- The answers of `h'` are those of `h` from some point on (R16). -/
def HostInput.ConsumedTo (h h' : HostInput) : Prop := ∃ n, ∀ k, h'.answer k = h.answer (n + k)

theorem HostInput.ConsumedTo.refl (h : HostInput) : h.ConsumedTo h :=
  ⟨0, fun k => by rw [Nat.zero_add]⟩

theorem HostInput.ConsumedTo.trans {h h' h'' : HostInput} (h₁ : h.ConsumedTo h') (h₂ : h'.ConsumedTo h'') :
    h.ConsumedTo h'' := by
  obtain ⟨m, hm⟩ := h₁
  obtain ⟨n, hn⟩ := h₂
  exact ⟨m + n, fun k => by rw [hn, hm, Nat.add_assoc]⟩

theorem HostInput.consumedTo_consult (h : HostInput) : h.ConsumedTo h.consult.2 := by
  obtain ⟨-, hrest⟩ := consult_answer h
  exact ⟨1, fun k => by rw [hrest, Nat.add_comm]⟩

theorem memRead_consumes (a : Word) (s : State) : s.input.ConsumedTo (memRead a s).2.input := by
  rcases memRead_state a s with h | ⟨-, h⟩ <;> rw [h]
  · exact .refl _
  · rw [poll_input]
    exact s.input.consumedTo_consult

theorem stringLoop_consumes (chars : Word → List Byte) (n : Nat) (a : Word) (s : State) :
    s.input.ConsumedTo (stringLoop chars n a s).2.input := by
  induction n generalizing a s with
  | zero => exact .refl _
  | succ n ih =>
    rw [stringLoop_succ]
    split
    · exact memRead_consumes a s
    · exact (memRead_consumes a s).trans (ih (a + 1) (emit (chars (memRead a s).1) (memRead a s).2))

theorem stringService_consumes (k : StringKind) (a : Word) (s : State) :
    s.input.ConsumedTo (stringService k a s).input :=
  stringLoop_consumes (stringChars k) stringLap a { s with serving := none }

theorem exec_consumes (h : exec i s = .next t) : s.input.ConsumedTo t.input := by
  obtain ⟨j, hj, acts⟩ := exists_actsAs i
  rw [acts.exec_eq] at h
  cases j with
  | trap v => exact absurd rfl (hj v)
  | ld | ldr =>
    cases h
    rw [loadTo_input]
    exact memRead_consumes ..
  | sti sr off9 =>
    cases h
    exact memRead_consumes (pcRel s off9) s
  | ldi dr off9 =>
    have hptr := memRead_consumes (pcRel s off9) s
    cases h
    rw [loadTo_input]
    exact hptr.trans (memRead_consumes ..)
  | puts | putsp =>
    cases h
    rw [serviceString]
    exact stringService_consumes ..
  | getc | inp =>
    cases h
    simpa [serviceGetc, serviceIn] using s.input.consumedTo_consult
  | br =>
    cases h
    split <;> exact .refl _
  | _ =>
    cases h
    exact .refl _

theorem exec_input_of_not_consulting (h : exec i s = .next t) (hpoll : ¬ mayPoll i s) (htakes : ¬ takesChar i) :
    t.input = s.input := by
  obtain ⟨j, hj, acts⟩ := exists_actsAs i
  rw [acts.exec_eq] at h
  rw [acts.mayPoll_iff] at hpoll
  rw [acts.takesChar_iff] at htakes
  cases j with
  | trap v => exact absurd rfl (hj v)
  | puts | putsp => exact absurd trivial hpoll
  | getc | inp => exact absurd trivial htakes
  | ld dr off9 | sti dr off9 =>
    have hread := memRead_plain (s := s) hpoll
    cases h
    simp [memWrite, indirect, hread]
  | ldr dr baseR off6 =>
    have hread := memRead_plain (s := s) hpoll
    cases h
    simp [hread]
  | ldi dr off9 =>
    obtain ⟨hptr, hdata⟩ := not_or.mp hpoll
    cases h
    rw [loadTo_input, memRead_plain hdata, indirect, memRead_plain hptr]
  | br =>
    cases h
    split <;> rfl
  | _ =>
    cases h
    rfl

theorem exec_serving_of_not_longService (h : exec i s = .next t) (hlong : ¬ longService i) :
    t.serving = s.serving := by
  obtain ⟨j, hj, acts⟩ := exists_actsAs i
  rw [acts.exec_eq] at h
  rw [acts.longService_iff] at hlong
  cases j with
  | trap v => exact absurd rfl (hj v)
  | puts | putsp | getc | inp => exact absurd trivial hlong
  | ld | ldi | ldr | sti =>
    cases h
    simp [indirect, memWrite]
  | br =>
    cases h
    split <;> rfl
  | _ =>
    cases h
    rfl

/-- The run state after an instruction: HALT halts, a fault faults, and nothing else changes it (R15, R140). -/
theorem exec_run (h : exec i s = .next t) : t.run =
    if i = .halt ∨ i = .trap 0x25 then .halted else if (faultOf i).isSome then .faulted else s.run := by
  obtain ⟨j, hj, acts⟩ := exists_actsAs i
  rw [acts.exec_eq] at h
  simp only [acts.halts_iff, acts.faults_eq]
  cases j with
  | trap v => exact absurd rfl (hj v)
  | ld | ldi | ldr | sti | puts | putsp | getc | inp =>
    cases h
    simp [faultOf, loadTo, indirect, memWrite, serviceGetc, serviceIn, serviceString]
  | br =>
    cases h
    split <;> rfl
  | _ =>
    cases h
    rfl

end Sys2Proof.Machine

open Sys2Proof.Machine

/-- Settles O53: each instruction writes its destination register or none. -/
theorem onlyTheDestinationRegisterIsWritten : Obligations.OnlyTheDestinationRegisterIsWritten :=
  fun _ _ _ _ h hq => exec_reg_of_ne h hq

/-- Settles O54: reads, stores and services keep pc. -/
theorem onlyControlTransfersWritePc : Obligations.OnlyControlTransfersWritePc :=
  fun _ _ _ h hpc => exec_pc_of_not_writesPc h hpc
/-- Settles O55: a store writes its own word, and a read or a service the keyboard's words at most. -/
theorem onlyTheStoredWordChanges : Obligations.OnlyTheStoredWordChanges :=
  fun _ _ _ _ hm h hstore hpoll => exec_peek hm h hstore hpoll

/-- Settles O56: by what each service emits. -/
theorem outputOnlyGrows : Obligations.OutputOnlyGrows := fun _ _ _ h => exec_out h

/-- Settles O57: a poll and a wait are each one consultation, and only the long services write `serving`. -/
theorem inputOnlyConsumed : Obligations.InputOnlyConsumed := fun _ _ _ h =>
  ⟨exec_consumes h, exec_input_of_not_consulting h, exec_serving_of_not_longService h⟩

/-- Settles O21: HALT and the faults write `run`. -/
theorem runStateChangesOnlyByHaltAndFaults : Obligations.RunStateChangesOnlyByHaltAndFaults := by
  refine fun i s t h => ⟨exec_run h, ?_⟩
  cases i with
  | trap v =>
    simp only [faultOf]
    split <;> simp
  | _ => simp [faultOf]
end

section
/-! PROOFS. What every step keeps: the invariant of O14 and the one flag of R14. -/

namespace Sys2Proof.Machine

/-- Exactly one flag is set (R14). -/
def OneFlag (c : BitVec 3) : Prop := c = 0b001#3 ∨ c = 0b010#3 ∨ c = 0b100#3

theorem oneFlag_flagOf (v : Word) : OneFlag (flagOf v) := by
  unfold flagOf
  split
  · exact .inr (.inl rfl)
  · split
    · exact .inr (.inr rfl)
    · exact .inl rfl

theorem legalCond_iff (c : BitVec 3) : legalCond c ↔ c = 0b000#3 ∨ OneFlag c := Iff.rfl

variable {i : Instr} {s t : State}

theorem exec_oneFlag_of_setsCond (hi : setsCond i = true) (h : exec i s = .next t) : OneFlag t.cond := by
  obtain ⟨dr, v, u, -, hexec⟩ := exec_of_setsCond hi s
  cases hexec.symm.trans h
  exact oneFlag_flagOf v

/-- An instruction leaves the flags, or exactly one of them set. -/
theorem exec_cond_or (h : exec i s = .next t) : t.cond = s.cond ∨ OneFlag t.cond := by
  cases hi : setsCond i with
  | true => exact .inr (exec_oneFlag_of_setsCond hi h)
  | false => exact .inl (exec_cond_of_not_setsCond hi h)

@[simp] theorem fetch_pc (s : State) : (fetch s).2.pc = s.pc + 1 := rfl
@[simp] theorem fetch_cond (s : State) : (fetch s).2.cond = s.cond := memRead_cond s.pc s
@[simp] theorem fetch_run (s : State) : (fetch s).2.run = s.run := memRead_run s.pc s
@[simp] theorem fetch_serving (s : State) : (fetch s).2.serving = s.serving := memRead_serving s.pc s

theorem fetch_wf (hm : s.mem.wf) : (fetch s).2.mem.wf := memRead_wf s.pc hm

@[simp] theorem continueService_cond (v : Service) (s : State) : (continueService v s).cond = s.cond := by
  cases v with
  | char k => exact awaitChar_cond k s
  | string k a => exact stringService_cond a k s

@[simp] theorem continueService_run (v : Service) (s : State) : (continueService v s).run = s.run := by
  cases v with
  | char k => exact awaitChar_run k s
  | string k a => exact stringService_run a k s

theorem continueService_wf (v : Service) (hm : s.mem.wf) : (continueService v s).mem.wf := by
  cases v with
  | char k =>
    rw [continueService, awaitChar_mem]
    exact hm
  | string k a =>
    obtain ⟨hwf, -⟩ := stringService_memory k a hm
    exact hwf

theorem step_cond_or (h : step s = .next t) : t.cond = s.cond ∨ OneFlag t.cond := by
  obtain ⟨-, ⟨-, hexec⟩ | ⟨v, -, rfl⟩⟩ := step_cases h
  · simpa using exec_cond_or hexec
  · exact .inl (continueService_cond v s)

theorem step_mem_wf (hm : s.mem.wf) (h : step s = .next t) : t.mem.wf := by
  obtain ⟨-, ⟨-, hexec⟩ | ⟨v, -, rfl⟩⟩ := step_cases h
  · exact exec_mem_wf (fetch_wf hm) hexec
  · exact continueService_wf v hm

/-- The services that may be left incomplete neither halt nor fault. -/
theorem exec_run_of_longService (hi : longService i) (h : exec i s = .next t) : t.run = s.run := by
  obtain ⟨j, hj, acts⟩ := exists_actsAs i
  rw [acts.longService_iff] at hi
  rw [acts.exec_eq] at h
  cases j with
  | getc | inp | puts | putsp =>
    rw [exec_run h]
    rfl
  | trap v => exact absurd rfl (hj v)
  | _ => exact hi.elim

/-- A step leaves a core inside a service only if it leaves it Running (R77). -/
theorem step_running_of_serving (h : step s = .next t) (ht : t.serving ≠ none) : t.run = .running := by
  obtain ⟨hrun, ⟨hnone, hexec⟩ | ⟨v, -, rfl⟩⟩ := step_cases h
  · by_cases hlong : longService (decode (fetch s).1)
    · rw [exec_run_of_longService hlong hexec, fetch_run, hrun]
    · rw [exec_serving_of_not_longService hexec hlong, fetch_serving] at ht
      exact absurd hnone ht
  · rw [continueService_run, hrun]

theorem step_inv (hs : s.Inv) (h : step s = .next t) : t.Inv := by
  obtain ⟨hwf, hcond, -⟩ := hs
  refine ⟨step_mem_wf hwf h, ?_, step_running_of_serving h⟩
  rcases step_cond_or h with hsame | hflag
  · rw [hsame]
    exact hcond
  · exact (legalCond_iff _).mpr (.inr hflag)

end Sys2Proof.Machine

open Sys2Proof.Machine

/-- Settles O14: memory, flags and run state each by what a step can do to them. -/
theorem stepKeepsTheInvariant : Obligations.StepKeepsTheInvariant := fun _ _ hs h => step_inv hs h

/-- Settles O19: an instruction leaves the flags or sets exactly one, and no mask meets no flag. -/
theorem oneFlagOnceAnyIsSet : Obligations.OneFlagOnceAnyIsSet := by
  refine ⟨fun s nzp off9 hcond => ?_, fun i s t => exec_oneFlag_of_setsCond, fun s t hflag h => ?_⟩
  · have hnot : branchTaken nzp s = false := by simp [branchTaken, hcond]
    simp [exec, execBr, hnot]
  · rcases step_cond_or h with hsame | hone
    · rw [hsame]
      exact hflag
    · exact hone
end

section
/-! PROOFS. Only BR reads the flags (R14): every operation it does not call commutes with replacing `cond`. -/

namespace Sys2Proof.Machine

/-- The state with its flags replaced. -/
def State.withCond (c : BitVec 3) (s : State) : State := { s with cond := c }

variable (c : BitVec 3) (s : State)

theorem poll_withCond : (s.withCond c).poll = s.poll.withCond c := by
  unfold State.poll
  rw [show (s.withCond c).input = s.input from rfl]
  split <;> rfl

theorem memRead_withCond (a : Word) : memRead a (s.withCond c) = ((memRead a s).1, (memRead a s).2.withCond c) := by
  by_cases h : a = kbPollAddr
  · subst h
    rw [memRead_poll, memRead_poll, poll_withCond]
    rfl
  · rw [memRead_plain h, memRead_plain h]
    rfl

theorem loadTo_withCond (dr : Reg) (a : Word) : loadTo dr a (s.withCond c) = loadTo dr a s := by
  rw [loadTo, loadTo, memRead_withCond]
  rfl

theorem indirect_withCond (off9 : BitVec 9) :
    indirect (s.withCond c) off9 = ((indirect s off9).1, (indirect s off9).2.withCond c) :=
  memRead_withCond c s (pcRel s off9)

theorem awaitChar_withCond (k : CharService) : awaitChar k (s.withCond c) = (awaitChar k s).withCond c := by
  unfold awaitChar
  rw [show (s.withCond c).input = s.input from rfl]
  split
  · cases k <;> rfl
  · rfl

theorem stringLoop_withCond (chars : Word → List Byte) (n : Nat) (a : Word) :
    stringLoop chars n a (s.withCond c) = ((stringLoop chars n a s).1, (stringLoop chars n a s).2.withCond c) := by
  induction n generalizing a s with
  | zero => rfl
  | succ n ih =>
    rw [stringLoop_succ, stringLoop_succ, memRead_withCond]
    split
    · rfl
    · exact ih (emit (chars (memRead a s).1) (memRead a s).2) (a + 1)

theorem stringService_withCond (k : StringKind) (a : Word) :
    stringService k a (s.withCond c) = (stringService k a s).withCond c := by
  have hloop := stringLoop_withCond c { s with serving := none } (stringChars k) stringLap a
  have hbegin : ({ s.withCond c with serving := none } : State) = .withCond c { s with serving := none } := rfl
  rw [stringService, hbegin, hloop]
  rfl

/-- With the flags replaced, an instruction other than BR leaves the same state, but for the flags if it writes none. -/
theorem exec_withCond {i : Instr} (hbr : ∀ nzp off9, i ≠ .br nzp off9) {s t : State} (h : exec i s = .next t) :
    exec i (s.withCond c) = .next (if setsCond i then t else t.withCond c) := by
  obtain ⟨j, hj, acts⟩ := exists_actsAs i
  rw [acts.exec_eq] at h ⊢
  rw [acts.setsCond_eq]
  cases j with
  | trap v => exact absurd rfl (hj v)
  | br nzp off9 => exact absurd ((acts.br_iff nzp off9).mpr rfl) (hbr nzp off9)
  | ld dr off9 =>
    cases h
    exact congrArg Host.Outcome.next (loadTo_withCond c s dr (pcRel s off9))
  | ldr dr baseR off6 =>
    cases h
    exact congrArg Host.Outcome.next (loadTo_withCond c s dr (baseOff s baseR off6))
  | ldi dr off9 =>
    cases h
    show Host.Outcome.next (loadTo dr (indirect (s.withCond c) off9).1 (indirect (s.withCond c) off9).2) = _
    rw [indirect_withCond, loadTo_withCond]
    rfl
  | sti sr off9 =>
    cases h
    simp only [exec, execSti, indirect_withCond]
    rfl
  | getc =>
    cases h
    exact congrArg Host.Outcome.next (awaitChar_withCond c s .getc)
  | inp =>
    cases h
    exact congrArg Host.Outcome.next (awaitChar_withCond c (emit Config.inPrompt s) .inp)
  | puts =>
    cases h
    exact congrArg Host.Outcome.next (stringService_withCond c s .puts (s.reg 0))
  | putsp =>
    cases h
    exact congrArg Host.Outcome.next (stringService_withCond c s .putsp (s.reg 0))
  | _ =>
    cases h
    rfl

end Sys2Proof.Machine

open Sys2Proof Machine

/-- Settles O20: what the flags were shows in the next state's flags at most. -/
theorem onlyBranchReadsTheFlags : Obligations.OnlyBranchReadsTheFlags := by
  intro i s c hbr
  obtain ⟨t, ht⟩ := exec_answers i s
  have hc : exec i { s with cond := c } = _ := exec_withCond c hbr ht
  rw [hc, ht]
  cases hi : setsCond i with
  | true => exact ⟨rfl, fun _ => rfl⟩
  | false => exact ⟨rfl, nofun⟩
end

section
/-! PROOFS. Faults are precise (R141), and a fetch sees the store before it (R41). -/

namespace Sys2Proof.Machine

/-- An instruction that raises a fault only ends the run (R127 to R129). -/
theorem exec_of_fault {i : Instr} (hi : (faultOf i).isSome = true) (s : State) :
    exec i s = .next { s with run := .faulted } := by
  cases i with
  | rti | res => rfl
  | trap v =>
    cases hv : isServiceVector v with
    | true => simp [faultOf, hv] at hi
    | false => exact exec_trap_of_not_service hv s
  | _ => cases hi

/-- Only an instruction that raises a fault ends a run in Faulted. -/
theorem faultOf_of_exec_faulted {i : Instr} {s t : State} (hs : s.run = .running) (h : exec i s = .next t)
    (ht : t.run = .faulted) : (faultOf i).isSome = true := by
  have hrun := exec_run h
  rw [ht, hs] at hrun
  by_contra hnone
  simp only [if_neg hnone] at hrun
  split at hrun <;> cases hrun

/-- The next fetch away from KBDR reads the word that has been written at pc. -/
theorem fetch_memWrite {s : State} {a v : Word} (hm : s.mem.wf) (ha : a = (memWrite a v s).pc)
    (hpc : (memWrite a v s).pc ≠ kbPollAddr) : (fetch (memWrite a v s)).1 = v := by
  rw [fetch_eq, memRead_plain hpc, ← ha]
  exact (poke_peek hm a a v).trans (if_pos rfl)

theorem faultInfo_of_faulted {s : State} (h : s.run = .faulted) :
    faultInfo s = (faultOf (decode (s.peek (s.pc - 1)))).map fun c => (c, s.pc - 1) :=
  if_pos h

end Sys2Proof.Machine

open Sys2Proof Machine

/-- Settles O22: a faulting instruction changes only `run`, and the word it was fetched from still stands at pc - 1. -/
theorem faultsArePrecise : Obligations.FaultsArePrecise := by
  intro s t hrun hserving hstep ht
  rw [step_running hrun hserving] at hstep
  have hfault := faultOf_of_exec_faulted ((fetch_run s).trans hrun) hstep ht
  obtain ⟨c, hc⟩ := Option.isSome_iff_exists.mp hfault
  cases (exec_of_fault hfault (fetch s).2).symm.trans hstep
  have haddr : s.pc + 1 - 1 = s.pc := BitVec.add_sub_cancel s.pc 1
  refine ⟨rfl, c, hc, ?_⟩
  rw [faultInfo_of_faulted rfl, fetch_pc, haddr]
  exact congrArg (Option.map fun c => (c, s.pc)) hc

/-- Settles O38: each store ends in one write, at pc by hypothesis. -/
theorem nextFetchSeesTheStore : Obligations.NextFetchSeesTheStore := by
  intro i s t sr hm hi h haddr hpc
  rcases hi with ⟨off9, rfl⟩ | ⟨off9, rfl⟩ | ⟨baseR, off6, rfl⟩
  · cases h
    exact fetch_memWrite hm (Option.some.inj haddr) hpc
  · cases h
    exact (fetch_memWrite (memRead_wf _ hm) (Option.some.inj haddr) hpc).trans (memRead_reg ..)
  · cases h
    exact fetch_memWrite hm (Option.some.inj haddr) hpc
end

section
/-! PROOFS. PUTS and PUTSP as the rules' loop (R123, R125): one step of the model is a circle of the addresses, and the
steps together are the unbounded loop. -/

namespace Sys2Proof.Machine

variable {chars : Word → List Byte}

/-- The loop ends in one state at most. -/
theorem StringRun.end_unique {m n : Nat} {a : Word} {s t u : State} (ht : StringRun chars m a s t)
    (hu : StringRun chars n a s u) : t = u := by
  have hloop {k v} (hk : k < m + n + 1) (h : StringRun chars k a s v) : stringLoop chars (m + n + 1) a s = (none, v) :=
    stringLoop_ends.mpr ⟨k, hk, h⟩
  have := (hloop (by omega) ht).symm.trans (hloop (by omega) hu)
  exact (Prod.mk.inj this).2

theorem address_succ (a : Word) (n : Nat) : a + 1 + BitVec.ofNat 16 n = a + BitVec.ofNat 16 (n + 1) := by
  rw [BitVec.add_assoc, BitVec.add_comm 1, BitVec.ofNat_add]
  rfl

/-- Where the loop stands after `n` words that have not ended it. -/
theorem stringLoop_address {n : Nat} {a b : Word} {s u : State} (h : stringLoop chars n a s = (some b, u)) :
    b = a + BitVec.ofNat 16 n := by
  induction n generalizing a s with
  | zero =>
    cases h
    exact (BitVec.add_zero b).symm
  | succ n ih =>
    rw [stringLoop_succ] at h
    split at h
    · cases h
    · rw [ih h, address_succ]

theorem serving_eta {u : State} {v : Option Service} (h : u.serving = v) : { u with serving := v } = u := by
  rw [← h]

theorem stringService_eq {k : StringKind} {a : Word} {s u : State} {b : Option Word}
    (h : stringLoop (stringChars k) stringLap a { s with serving := none } = (b, u)) :
    u.serving = none ∧ stringService k a s = { u with serving := b.map (.string k) } := by
  obtain ⟨-, -, -, -, hserving⟩ := stringLoop_keeps (stringChars k) stringLap a { s with serving := none }
  rw [h] at hserving
  exact ⟨hserving, by rw [stringService, h]⟩

/-- A loop that ends within a circle ends the service, in the same state. -/
theorem stringService_of_run {k : StringKind} {n : Nat} {a : Word} {s t : State} (hn : n < 65536)
    (h : StringRun (stringChars k) n a { s with serving := none } t) :
    stringService k a s = t ∧ t.serving = none := by
  obtain ⟨hserving, hservice⟩ := stringService_eq (stringLoop_ends.mpr ⟨n, hn, h⟩)
  exact ⟨hservice.trans (serving_eta hserving), hserving⟩

/-- A loop that a circle has not ended leaves the service where it came by, a circle on in the run of the rules. -/
theorem stringService_goesOn {k : StringKind} {a b : Word} {s u : State}
    (h : stringLoop (stringChars k) stringLap a { s with serving := none } = (some b, u)) :
    (stringService k a s).serving = some (.string k a) ∧ ∀ n t, StringRun (stringChars k) (65536 + n) a
      { s with serving := none } t ↔ StringRun (stringChars k) n a { stringService k a s with serving := none } t := by
  obtain ⟨hserving, hservice⟩ := stringService_eq h
  have hb : b = a := (stringLoop_address h).trans (BitVec.add_zero a)
  subst hb
  rw [hservice]
  refine ⟨rfl, fun n t => ?_⟩
  have := stringLoop_goesOn h n t
  rw [show ({ u with serving := none } : State) = u from serving_eta hserving]
  exact this

/-- Either of the two, for every string. -/
theorem stringService_cases (k : StringKind) (a : Word) (s : State) :
    (∃ n < 65536, StringRun (stringChars k) n a { s with serving := none } (stringService k a s)) ∨
    ∃ b u, stringLoop (stringChars k) stringLap a { s with serving := none } = (some b, u) := by
  rcases hloop : stringLoop (stringChars k) stringLap a { s with serving := none } with ⟨_ | b, u⟩
  · obtain ⟨n, hn, hrun⟩ := stringLoop_ends.mp hloop
    obtain ⟨hservice, -⟩ := stringService_of_run hn hrun
    exact .inl ⟨n, hn, hservice ▸ hrun⟩
  · exact .inr ⟨b, u, rfl⟩

/-- A step inside a service leaves the completion where it was. -/
theorem completes_step_iff {s t : State} (hserving : s.serving ≠ none) (hstep : step s = .next t) (u : State) :
    Completes s u ↔ Completes t u := by
  refine ⟨fun h => ?_, .more s t u hserving hstep⟩
  cases h with
  | done _ hnone => exact absurd hnone hserving
  | more _ t' _ _ hstep' rest =>
    cases hstep.symm.trans hstep'
    exact rest

theorem step_inside_string {k : StringKind} {a : Word} {s : State} (hrun : s.run = .running)
    (hserving : s.serving = some (.string k a)) : step s = .next (stringService k a s) :=
  step_serving hrun hserving

/-- A service that completes in `u` is a run of the rules to `u`, by induction on the steps of the model. -/
theorem run_of_completes {k : StringKind} {a : Word} {s u : State} (hrun : s.run = .running)
    (h : Completes (stringService k a s) u) : ∃ n, StringRun (stringChars k) n a { s with serving := none } u := by
  generalize ht : stringService k a s = t at h
  induction h generalizing s with
  | done t hnone =>
    subst ht
    rcases stringService_cases k a s with ⟨n, -, hrun⟩ | ⟨b, v, hloop⟩
    · exact ⟨n, hrun⟩
    · obtain ⟨hserving, -⟩ := stringService_goesOn hloop
      rw [hserving] at hnone
      cases hnone
  | more t t' u hserving hstep _ ih =>
    subst ht
    rcases stringService_cases k a s with ⟨n, hn, hrun'⟩ | ⟨b, v, hloop⟩
    · obtain ⟨-, hnone⟩ := stringService_of_run hn hrun'
      exact absurd hnone hserving
    · obtain ⟨hinside, hruns⟩ := stringService_goesOn hloop
      have hrun' : (stringService k a s).run = .running := (stringService_run a k s).trans hrun
      rw [step_inside_string hrun' hinside] at hstep
      cases hstep
      obtain ⟨n, hn⟩ := ih hrun' rfl
      exact ⟨65536 + n, (hruns n u).mpr hn⟩

/-- A service whose run of the rules ends completes, by induction on the words of the run. -/
theorem completes_of_run {k : StringKind} {n : Nat} {a : Word} {s u : State} (hrun : s.run = .running)
    (h : StringRun (stringChars k) n a { s with serving := none } u) : Completes (stringService k a s) u := by
  induction n using Nat.strong_induction_on generalizing s with
  | _ n ih =>
    by_cases hn : n < 65536
    · obtain ⟨hservice, hnone⟩ := stringService_of_run hn h
      rw [hservice]
      exact .done u hnone
    · obtain ⟨m, rfl⟩ := Nat.exists_eq_add_of_le (Nat.le_of_not_lt hn)
      rcases stringService_cases k a s with ⟨l, hl, hend⟩ | ⟨b, v, hloop⟩
      · obtain ⟨-, hnone⟩ := stringService_of_run hl hend
        rw [← hend.end_unique h]
        exact .done _ hnone
      · obtain ⟨hinside, hruns⟩ := stringService_goesOn hloop
        have hrun' : (stringService k a s).run = .running := (stringService_run a k s).trans hrun
        refine .more _ _ u (by simp [hinside]) (step_inside_string hrun' hinside) ?_
        exact ih m (by omega) hrun' ((hruns m u).mp h)

theorem completes_stringService_iff {k : StringKind} {a : Word} {s : State} (hrun : s.run = .running) (u : State) :
    Completes (stringService k a s) u ↔ ∃ n, StringRun (stringChars k) n a { s with serving := none } u :=
  ⟨run_of_completes hrun, fun ⟨_, h⟩ => completes_of_run hrun h⟩

theorem exec_stringInstr (k : StringKind) (s : State) :
    exec (stringInstr k) s = .next (stringService k (s.reg 0) s) := by
  cases k <;> rfl

end Sys2Proof.Machine

open Sys2Proof Machine

/-- Settles O47: one step is a circle of the loop, and the steps of the service follow the loop's run. -/
theorem stringServicesRunTheRulesLoop : Obligations.StringServicesRunTheRulesLoop := by
  intro k s hrun
  rw [exec_stringInstr]
  refine ⟨fun n t hn h => ?_, ⟨_, rfl, completes_stringService_iff hrun⟩, fun a hserving u => ?_⟩
  · obtain ⟨hservice, -⟩ := stringService_of_run hn h
    rw [hservice]
  · rw [completes_step_iff (by simp [hserving]) (step_inside_string hrun hserving), completes_stringService_iff hrun]
end

section
/-! PROOFS. PUTS and PUTSP on a string that ends before KBDR (R123, R125). -/

namespace Sys2Proof.Machine

/-- The nonzero words `ws` stand in a row from `a` on, with a zero word after them, and none of their addresses is
KBDR's. -/
structure StringAt (s : State) (a : Word) (ws : List Word) : Prop where
  words : ∀ k w, ws[k]? = some w → s.peek (a + BitVec.ofNat 16 k) = w ∧ w ≠ 0x0000#16
  terminator : s.peek (a + BitVec.ofNat 16 ws.length) = 0x0000#16
  noPoll : ∀ k, k ≤ ws.length → a + BitVec.ofNat 16 k ≠ kbPollAddr

variable {s : State} {a w : Word} {ws : List Word}

theorem StringAt.memRead_eq (h : StringAt s a ws) : memRead a s = (s.peek a, s) :=
  memRead_plain (BitVec.add_zero a ▸ h.noPoll 0 (Nat.zero_le _)) s

theorem StringAt.tail (h : StringAt s a (w :: ws)) : StringAt s (a + 1) ws where
  words k v hv := by
    rw [address_succ]
    exact h.words (k + 1) v hv
  terminator := by
    rw [address_succ]
    exact h.terminator
  noPoll k hk := by
    rw [address_succ]
    exact h.noPoll (k + 1) (Nat.succ_le_succ hk)

theorem StringAt.emit (h : StringAt s a ws) (bs : List Byte) : StringAt (emit bs s) a ws :=
  ⟨h.words, h.terminator, h.noPoll⟩

theorem emit_nil (s : State) : emit [] s = s := by
  rw [Machine.emit, List.append_nil]

theorem emit_emit (bs cs : List Byte) (s : State) : emit cs (emit bs s) = emit (bs ++ cs) s := by
  rw [Machine.emit, Machine.emit, Machine.emit, List.append_assoc]

/-- A string is a run of the rules that emits its words. -/
theorem StringAt.run (chars : Word → List Byte) (h : StringAt s a ws) :
    StringRun chars ws.length a s (Machine.emit (ws.flatMap chars) s) := by
  have hread := h.memRead_eq
  induction ws generalizing a s with
  | nil =>
    have hzero : s.peek a = 0x0000#16 := BitVec.add_zero a ▸ h.terminator
    have hstop := StringRun.stop (chars := chars) a s (by rw [hread]; exact hzero)
    rw [hread] at hstop
    rw [List.flatMap_nil, emit_nil]
    exact hstop
  | cons w ws ih =>
    obtain ⟨hword, hnonzero⟩ := h.words 0 w rfl
    rw [show a + BitVec.ofNat 16 0 = a from BitVec.add_zero a] at hword
    refine .more ws.length a s _ (by rw [hread]; exact hword ▸ hnonzero) ?_
    rw [hread, hword, List.flatMap_cons, ← emit_emit]
    have htail := h.tail.emit (chars w)
    exact ih htail htail.memRead_eq

/-- Such a string is shorter than a circle of the addresses, which would meet KBDR. -/
theorem StringAt.length_lt (h : StringAt s a ws) : ws.length < 65536 := by
  by_contra hlong
  refine h.noPoll (kbPollAddr - a).toNat (by omega) ?_
  rw [BitVec.ofNat_toNat, BitVec.setWidth_eq, BitVec.add_comm, BitVec.sub_add_cancel]

theorem StringAt.exec (k : StringKind) (h : StringAt s (s.reg 0) ws) : exec (stringInstr k) s =
    .next { s with out := s.out ++ ws.flatMap (stringChars k), serving := none } := by
  have hs : StringAt { s with serving := none } (s.reg 0) ws := ⟨h.words, h.terminator, h.noPoll⟩
  obtain ⟨hservice, -⟩ := stringService_of_run hs.length_lt (hs.run (stringChars k))
  rw [exec_stringInstr, hservice]
  rfl

theorem lowByte_eq (w : Word) : lowByte w = BitVec.ofNat 8 w.toNat := by
  apply BitVec.eq_of_toNat_eq
  simp [lowByte]

theorem highByte_eq (w : Word) : highByte w = BitVec.ofNat 8 (w.toNat / 256) := by
  apply BitVec.eq_of_toNat_eq
  simp [highByte, Nat.shiftRight_eq_div_pow]

theorem highByte_eq_zero_iff (w : Word) : highByte w = 0x00#8 ↔ w.toNat / 256 = 0 := by
  have hsmall : w.toNat / 256 < 256 := by omega
  rw [highByte_eq, ← BitVec.toNat_inj, BitVec.toNat_ofNat, Nat.mod_eq_of_lt hsmall]
  rfl

end Sys2Proof.Machine

open Sys2Proof Machine

/-- Settles O45: PUTS emits of each word its low byte. -/
theorem putsEmitsTheLowBytes : Obligations.PutsEmitsTheLowBytes := by
  intro s ws hws hend hkbdr
  simp only [List.map_eq_flatMap, ← lowByte_eq]
  exact StringAt.exec .puts ⟨hws, hend, hkbdr⟩

/-- Settles O46: PUTSP emits of each word its low byte and, if it is nonzero, its high byte. -/
theorem putspEmitsBothBytes : Obligations.PutspEmitsBothBytes := by
  intro s ws hws hend hkbdr
  have hchars (w : Word) : putspChars w =
      BitVec.ofNat 8 w.toNat :: if w.toNat / 256 = 0 then [] else [BitVec.ofNat 8 (w.toNat / 256)] := by
    by_cases hw : w.toNat / 256 = 0
    · rw [putspChars, if_pos ((highByte_eq_zero_iff w).mpr hw), if_pos hw, lowByte_eq]
    · rw [putspChars, if_neg (mt (highByte_eq_zero_iff w).mp hw), if_neg hw, lowByte_eq, highByte_eq]
  simp only [← hchars]
  exact StringAt.exec .putsp ⟨hws, hend, hkbdr⟩
end

section
/-! PROOFS. A circle of the addresses without a zero word (R123, R125; U13): the words up to KBDR, the poll's word, and
the words after it. -/

namespace Sys2Proof.Machine

variable {chars : Word → List Byte} {s : State}

/-- A nonzero word reads back, in canonical memory or not. -/
theorem poke_peek_listed {v : Word} (hv : v ≠ 0x0000#16) (a b : Word) :
    (s.poke a v).peek b = if b = a then v else s.peek b := by
  simp only [State.peek, poke_mem, Memory.read_write_listed _ _ _ hv, BitVec.toNat_inj]

theorem zeroExtend_ne_zero {c : Byte} (h : c ≠ 0x00#8) : c.zeroExtend 16 ≠ 0x0000#16 := by
  intro e
  apply h
  have := congrArg BitVec.toNat e
  rw [BitVec.toNat_setWidth_of_le (by decide)] at this
  exact BitVec.eq_of_toNat_eq this

/-- What a poll with a nonzero character leaves in memory (R34, D15). -/
theorem poll_peek_listed {c : Byte} (hc : s.input.consult.1 = some c) (hzero : c ≠ 0x00#8) (b : Word) :
    s.poll.peek b = if b = kbsrAddr then 0x8000#16 else if b = kbdrAddr then c.zeroExtend 16 else s.peek b := by
  unfold State.poll
  split
  next c' h e =>
    rw [e] at hc
    cases hc
    rw [poke_peek_listed (by decide), poke_peek_listed (zeroExtend_ne_zero hzero)]
    rfl
  next h e =>
    rw [e] at hc
    cases hc

/-- Two stretches of the loop make one. -/
theorem stringLoop_add {m n : Nat} {a b : Word} {s u : State} (h : stringLoop chars m a s = (some b, u)) :
    stringLoop chars (m + n) a s = stringLoop chars n b u := by
  induction m generalizing a s with
  | zero =>
    cases h
    rw [Nat.zero_add]
  | succ m ih =>
    rw [stringLoop_succ] at h
    split at h
    · cases h
    next hz =>
      rw [Nat.succ_add, stringLoop_succ, if_neg hz]
      exact ih h

theorem stringChars_nonempty (k : StringKind) (w : Word) : 1 ≤ (stringChars k w).length := by
  cases k with
  | puts => exact Nat.le_refl 1
  | putsp =>
    simp only [stringChars, putspChars]
    split <;> simp

/-- A stretch away from KBDR without a zero word emits a character a word at least, and changes nothing else. -/
theorem stringLoop_stretch (k : StringKind) {n : Nat} {a : Word} (hz : ∀ b, s.peek b ≠ 0x0000#16)
    (hkbdr : ∀ j < n, a + BitVec.ofNat 16 j ≠ kbPollAddr) : ∃ bs, n ≤ bs.length ∧
      stringLoop (stringChars k) n a s = (some (a + BitVec.ofNat 16 n), emit bs s) := by
  induction n generalizing a s with
  | zero =>
    refine ⟨[], Nat.le_refl 0, ?_⟩
    rw [emit_nil]
    exact congrArg (fun b => (some b, s)) (BitVec.add_zero a).symm
  | succ n ih =>
    have hread : memRead a s = (s.peek a, s) := memRead_plain (BitVec.add_zero a ▸ hkbdr 0 (Nat.succ_pos n)) s
    obtain ⟨bs, hlen, hloop⟩ := ih (s := emit (stringChars k (s.peek a)) s) (a := a + 1) hz fun j hj => by
      rw [address_succ]
      exact hkbdr (j + 1) (Nat.succ_lt_succ hj)
    refine ⟨stringChars k (s.peek a) ++ bs, ?_, ?_⟩
    · have := stringChars_nonempty k (s.peek a)
      rw [List.length_append]
      omega
    · rw [stringLoop_succ, hread, if_neg (hz a), hloop, emit_emit, address_succ]

/-- Which word of a string stands at an address. -/
theorem address_eq_iff {a b : Word} {j : Nat} (hj : j < 65536) : a + BitVec.ofNat 16 j = b ↔ j = (b - a).toNat := by
  constructor
  · rintro rfl
    rw [BitVec.add_comm, BitVec.add_sub_cancel, BitVec.toNat_ofNat, Nat.mod_eq_of_lt hj]
  · rintro rfl
    rw [BitVec.ofNat_toNat, BitVec.setWidth_eq, BitVec.add_comm, BitVec.sub_add_cancel]

theorem poll_emit (bs : List Byte) (s : State) : (emit bs s).poll = emit bs s.poll := by
  unfold State.poll
  rw [emit_input]
  split <;> rfl

/-- A circle that meets no zero word, before the poll or after it. -/
theorem stringLoop_circle (k : StringKind) (a : Word) (hz : ∀ b, s.peek b ≠ 0x0000#16)
    (hpoll : ∀ b, s.poll.peek b ≠ 0x0000#16) : ∃ bs, 65536 ≤ bs.length ∧
      stringLoop (stringChars k) stringLap a s = (some a, emit bs s.poll) := by
  obtain ⟨d, hd⟩ : ∃ d, d = (kbPollAddr - a).toNat := ⟨_, rfl⟩
  have hlt : d < 65536 := hd ▸ (kbPollAddr - a).isLt
  obtain ⟨bs, hbs, hbefore⟩ := stringLoop_stretch (a := a) k hz fun j (hj : j < d) h => by
    have := (address_eq_iff (by omega)).mp h
    omega
  rw [(address_eq_iff hlt).mpr hd] at hbefore
  obtain ⟨w, hw⟩ : ∃ w, w = s.poll.peek kbPollAddr := ⟨_, rfl⟩
  obtain ⟨cs, hcs, hafter⟩ := stringLoop_stretch (s := emit (bs ++ stringChars k w) s.poll) (a := kbPollAddr + 1)
    (n := 65535 - d) k hpoll fun j hj h => by
      rw [address_succ, address_eq_iff (by omega), BitVec.sub_self] at h
      cases h
  have hturn : stringLoop (stringChars k) (65535 - d + 1) kbPollAddr (emit bs s) =
      stringLoop (stringChars k) (65535 - d) (kbPollAddr + 1) (emit (bs ++ stringChars k w) s.poll) := by
    rw [stringLoop_succ, memRead_poll, poll_emit, emit_peek, ← hw, if_neg (hw ▸ hpoll kbPollAddr), emit_emit]
  have hcircle := (stringLoop_add hbefore).trans (hturn.trans hafter)
  rw [show d + (65535 - d + 1) = stringLap from by rw [stringLap]; omega] at hcircle
  have haddr := (stringLoop_address hcircle).trans (BitVec.add_zero a)
  rw [haddr, emit_emit] at hcircle
  refine ⟨_, ?_, hcircle⟩
  have := stringChars_nonempty k w
  simp only [List.length_append]
  omega

/-- What a circle without a zero word leaves of a string service. -/
theorem stringService_circledOnce (k : StringKind) (a : Word) {c : Byte} (hz : ∀ b, s.peek b ≠ 0x0000#16)
    (hc : s.input.consult.1 = some c) (hzero : c ≠ 0x00#8) : circledOnce k a c s (stringService k a s) := by
  have hpoll := poll_peek_listed (s := { s with serving := none }) hc hzero
  have hpollz (b : Word) : ({ s with serving := none } : State).poll.peek b ≠ 0x0000#16 := by
    rw [hpoll]
    split
    · decide
    · split
      · exact zeroExtend_ne_zero hzero
      · exact hz b
  obtain ⟨bs, hlen, hloop⟩ := stringLoop_circle (s := { s with serving := none }) k a hz hpollz
  obtain ⟨-, hservice⟩ := stringService_eq hloop
  refine ⟨?_, ?_, ?_, ?_, ⟨bs, ?_, hlen⟩, stringService_run .., stringService_pc .., stringService_cond ..,
    fun q => stringService_reg ..⟩
  all_goals rw [hservice]
  · rfl
  · exact hpoll
  · exact hpollz
  · exact poll_input _
  · exact congrArg (· ++ bs) (poll_out _)

end Sys2Proof.Machine

open Sys2Proof Machine

/-- Settles O48: a step of the service is a circle that meets no zero word. -/
theorem noTerminatorKeepsServing : Obligations.NoTerminatorKeepsServing := by
  intro k s c hz hc hzero
  refine ⟨⟨_, exec_stringInstr k s, stringService_circledOnce k _ hz hc hzero⟩, fun a hrun hserving => ?_⟩
  exact ⟨_, step_inside_string hrun hserving, stringService_circledOnce k a hz hc hzero⟩
end

section
/-! PROOFS. Reset and the step (10_state.md section 7, 40_fetch_step.md). -/

namespace Sys2Proof.Machine

@[simp] theorem resetWith_reg (m : Memory) (h : HostInput) (q : Reg) : (State.resetWith m h).reg q = 0x0000#16 := by
  simp [State.reg, State.resetWith]

theorem resetWith_inv {m : Memory} (hm : m.wf) (h : HostInput) : (State.resetWith m h).Inv :=
  ⟨hm, .inl rfl, fun _ => rfl⟩

variable {s : State} (k : CharService)

/-- Without a character the core waits (R77). -/
theorem awaitChar_of_none (h : s.input.consult.1 = none) :
    awaitChar k s = { s with input := s.input.consult.2, serving := some (.char k) } := by
  rcases awaitChar_cases k s with ⟨c, hc, -⟩ | ⟨-, hwait⟩
  · rw [h] at hc
    cases hc
  · exact hwait

/-- With a character the service finishes: R0 is written, and IN echoes (R121, R124). -/
theorem awaitChar_of_some {c : Byte} (h : s.input.consult.1 = some c) :
    (awaitChar k s).reg 0 = c.zeroExtend 16 ∧ (awaitChar k s).out = s.out ++ (if k = .inp then [c] else []) ∧
    (awaitChar k s).serving = none := by
  rcases awaitChar_cases k s with ⟨c', hc, hdone⟩ | ⟨hc, -⟩ <;> rw [h] at hc <;> cases hc
  rw [hdone]
  cases k with
  | getc => exact ⟨setReg_reg _ 0 0 _, (List.append_nil _).symm, rfl⟩
  | inp => exact ⟨setReg_reg _ 0 0 _, rfl, rfl⟩

end Sys2Proof.Machine

open Sys2Proof Machine

/-- Settles O15: a reset state has no flag set and is inside no service. -/
theorem resetMeetsTheInvariant : Obligations.ResetMeetsTheInvariant :=
  ⟨fun _ h hm => resetWith_inv hm h, resetWith_inv (by decide) _⟩

/-- Settles O16: State.reset is the reset with nothing listed. -/
theorem resetValues : Obligations.ResetValues :=
  ⟨fun m h => ⟨rfl, resetWith_reg m h, rfl, rfl, rfl, rfl, rfl, rfl⟩, _, rfl, rfl⟩

/-- Settles O17: a later reset is a reset with the memory and the input that stand. -/
theorem warmResetKeepsMemory : Obligations.WarmResetKeepsMemory := fun s =>
  ⟨rfl, resetWith_reg s.mem s.input, rfl, rfl, rfl, fun _ => rfl, rfl, rfl⟩

/-- Settles O10: the fetch is one `memRead` at pc and the increment. -/
theorem stepRunsTheDecodedInstruction : Obligations.StepRunsTheDecodedInstruction := fun s hrun hserving =>
  ⟨step_running hrun hserving, BitVec.toNat_add s.pc 1⟩

/-- Settles O11: `step` looks at `run` first. -/
theorem noStepOnceTheRunHasEnded : Obligations.NoStepOnceTheRunHasEnded := by
  refine fun s => ⟨fun h => ?_, fun h => ?_, fun t h => ?_⟩
  · simp only [step, h]
  · simp only [step, h]
  · obtain ⟨hrun, -⟩ := step_cases h
    exact hrun

/-- Settles O12: the step is the service's one consultation. -/
theorem waitingCoreOnlyAwaitsItsCharacter : Obligations.WaitingCoreOnlyAwaitsItsCharacter := by
  intro s k hrun hserving
  have hstep : step s = .next (awaitChar k s) := step_serving hrun hserving
  rw [hstep]
  refine ⟨fun hnone => ?_, fun c hc => ?_⟩
  · rw [awaitChar_of_none k hnone, ← hserving]
  · obtain ⟨hreg0, hout, hdone⟩ := awaitChar_of_some k hc
    obtain ⟨hpc, hcond, hrun, hmem, hinput, hreg⟩ := awaitChar_frame k s
    exact ⟨_, rfl, hreg0, hreg, hout, hdone, hpc, hcond, hrun, hmem, hinput⟩

/-- Settles O13: a step is an instruction, which answers, or a service that goes on. -/
theorem runningCoreAlwaysHasAStep : Obligations.RunningCoreAlwaysHasAStep := by
  refine ⟨exec_answers, fun s hrun => ?_⟩
  cases hserving : s.serving with
  | none =>
    rw [step_running hrun hserving]
    exact exec_answers ..
  | some v => exact ⟨_, step_serving hrun hserving⟩
end

section
/-! PROOFS. Each instruction's result, flags and frame (41_alu.md to 45_trap_reserved.md). -/

namespace Sys2Proof.Machine

variable (s : State)

theorem ofNat_toNat_add (v w : Word) : BitVec.ofNat 16 (v.toNat + w.toNat) = v + w := by
  rw [BitVec.ofNat_add, BitVec.ofNat_toNat, BitVec.ofNat_toNat, BitVec.setWidth_eq, BitVec.setWidth_eq]

theorem xor_ones_eq (v : Word) : v ^^^ 0xFFFF#16 = BitVec.ofNat 16 (65535 - v.toNat) := by
  have hnot : v ^^^ 0xFFFF#16 = ~~~v := BitVec.xor_allOnes
  apply BitVec.eq_of_toNat_eq
  rw [hnot, BitVec.toNat_not, BitVec.toNat_ofNat, Nat.mod_eq_of_lt (by omega)]

/-- A store changes its word only (R35, D14). -/
theorem memWrite_wroteMemory {s : State} (hm : s.mem.wf) (a v : Word) : wroteMemory a v s (memWrite a v s) := by
  have hpeek := poke_peek hm a
  exact ⟨(hpeek a v).trans (if_pos rfl), fun b hb => (hpeek b v).trans (if_neg hb), fun _ => rfl, rfl, rfl, rfl, rfl,
    rfl, rfl⟩

/-- The link write and the jump of JSR and JSRR. -/
theorem link_setPc_wentTo (target : Word) : wentTo target (some s.pc) s ((link s).setPc target) := by
  refine ⟨rfl, fun q => ?_, rfl, fun _ => rfl, rfl, rfl, rfl, rfl⟩
  exact (setReg_reg s 7 q s.pc).trans (by simp [eq_comm])

theorem branchTaken_iff (nzp : BitVec 3) : branchTaken nzp s = true ↔
    ∃ k, k < 3 ∧ nzp.getLsbD k = true ∧ s.cond.getLsbD k = true := by
  have hbits : ∀ m c : BitVec 3, (m &&& c != 0b000#3) = true ↔
      ∃ k, k < 3 ∧ m.getLsbD k = true ∧ c.getLsbD k = true := by
    decide
  exact hbits nzp s.cond

end Sys2Proof.Machine

open Sys2Proof Machine

/-- Settles O23: the sum of two words is the sum of their values modulo 2^16. -/
theorem addRegisterResult : Obligations.AddRegisterResult := by
  intro s dr sr1 sr2
  rw [ofNat_toNat_add]
  exact ⟨_, rfl, writeResult_wroteResult ..⟩

/-- Settles O24: as O23, with the immediate sign-extended. -/
theorem addImmediateResult : Obligations.AddImmediateResult := by
  intro s dr sr1 imm5
  rw [ofNat_toNat_add]
  exact ⟨_, rfl, writeResult_wroteResult ..⟩

/-- Settles O25: the AND of words is bitwise. -/
theorem andRegisterResult : Obligations.AndRegisterResult := fun s dr sr1 sr2 =>
  ⟨_, _, rfl, writeResult_wroteResult dr (s.reg sr1 &&& s.reg sr2) s, fun _ _ => BitVec.getLsbD_and⟩

/-- Settles O26: the AND of words is bitwise. -/
theorem andImmediateResult : Obligations.AndImmediateResult := fun s dr sr1 imm5 =>
  ⟨_, _, rfl, writeResult_wroteResult dr (s.reg sr1 &&& sext imm5) s, fun _ _ => BitVec.getLsbD_and⟩

/-- Settles O27: the complement is what is missing to 65535. -/
theorem notResult : Obligations.NotResult := by
  intro s dr sr1
  rw [← xor_ones_eq]
  exact ⟨_, rfl, writeResult_wroteResult ..⟩

/-- Settles O28: the word answered is the one the poll leaves in KBDR. -/
theorem memReadPollsOnlyAtKbdr : Obligations.MemReadPollsOnlyAtKbdr := by
  refine ⟨fun s a ha => memRead_plain ha s, fun s hm => ?_⟩
  have hread : memRead 0xFE02 s = (s.poll.peek kbdrAddr, s.poll) := memRead_poll s
  have hkbdr := poll_peek hm kbdrAddr
  rw [if_neg (by decide), if_pos rfl] at hkbdr
  rw [hread]
  refine ⟨hkbdr, fun b => ?_, poll_input s, poll_reg s, poll_pc s, poll_cond s, poll_run s, poll_out s⟩
  by_cases hb : b = kbdrAddr
  · subst hb
    rfl
  · rw [poll_peek hm, if_neg hb]
    exact congrArg _ (if_neg hb).symm

/-- Settles O29: a store is a plain write of canonical memory. -/
theorem memWriteIsPlainEverywhere : Obligations.MemWriteIsPlainEverywhere :=
  fun _ a v hm => memWrite_wroteMemory hm a v

/-- Settles O30: the indirect address is the one `memRead` of the pointer. -/
theorem addressingModes : Obligations.AddressingModes := fun _ _ _ _ =>
  ⟨BitVec.toNat_add .., rfl, BitVec.toNat_add .., memRead_pc .., fun _ => memRead_reg ..⟩

/-- Settles O31: the result written is the word of the one read. -/
theorem loadPcRelativeResult : Obligations.LoadPcRelativeResult := fun _ _ _ => ⟨_, rfl, writeResult_wroteResult ..⟩

/-- Settles O32: the result written is the word of the second read. -/
theorem loadIndirectResult : Obligations.LoadIndirectResult := fun _ _ _ => ⟨_, rfl, writeResult_wroteResult ..⟩

/-- Settles O33: the result written is the word of the one read. -/
theorem loadBaseOffsetResult : Obligations.LoadBaseOffsetResult := fun _ _ _ _ => ⟨_, rfl, writeResult_wroteResult ..⟩

/-- Settles O34: the address is the result, and nothing is read. -/
theorem loadEffectiveAddressResult : Obligations.LoadEffectiveAddressResult := by
  intro s dr off9
  rw [ofNat_toNat_add]
  exact ⟨_, rfl, rfl, writeResult_wroteResult ..⟩

/-- Settles O35: one write on the state itself. -/
theorem storePcRelativeResult : Obligations.StorePcRelativeResult := fun _ _ _ hm =>
  ⟨_, rfl, memWrite_wroteMemory hm ..⟩

/-- Settles O36: the pointer's read leaves SR as it was. -/
theorem storeIndirectResult : Obligations.StoreIndirectResult := by
  intro s sr off9 hm
  have hsr : (indirect s off9).2.reg sr = s.reg sr := memRead_reg ..
  rw [← hsr]
  exact ⟨_, rfl, memWrite_wroteMemory (memRead_wf _ hm) ..⟩

/-- Settles O37: one write on the state itself. -/
theorem storeBaseOffsetResult : Obligations.StoreBaseOffsetResult := fun _ _ _ _ hm =>
  ⟨_, rfl, memWrite_wroteMemory hm ..⟩

/-- Settles O39: some bit is set in both exactly when their AND is not zero. -/
theorem branchResult : Obligations.BranchResult := by
  intro s nzp off9
  simp only [ofNat_toNat_add, ← branchTaken_iff]
  rw [exec, execBr]
  split <;> rfl

/-- Settles O40: only pc is written. -/
theorem jumpResult : Obligations.JumpResult := by
  refine fun s baseR => ⟨_, rfl, rfl, fun q => ?_, rfl, fun _ => rfl, rfl, rfl, rfl, rfl⟩
  split
  next h =>
    rw [h]
    rfl
  next => rfl

/-- Settles O41: the link, then the jump. -/
theorem callPcRelativeResult : Obligations.CallPcRelativeResult := by
  intro s off11
  rw [ofNat_toNat_add]
  exact ⟨_, rfl, link_setPc_wentTo s _⟩

/-- Settles O42: the base register is read after the link is written. -/
theorem callThroughRegisterResult : Obligations.CallThroughRegisterResult := by
  intro s baseR
  have hbase : (link s).reg baseR = if baseR = 7 then s.pc else s.reg baseR :=
    (setReg_reg s 7 baseR s.pc).trans (by simp [eq_comm])
  rw [← hbase]
  exact ⟨_, rfl, link_setPc_wentTo s _⟩

/-- Settles O43: one consultation of the host. -/
theorem getcTakesOneCharacter : Obligations.GetcTakesOneCharacter := by
  refine fun s => ⟨fun c hc => ?_, fun hnone => congrArg Host.Outcome.next (awaitChar_of_none .getc hnone)⟩
  obtain ⟨hreg0, hout, hdone⟩ := awaitChar_of_some .getc hc
  obtain ⟨hpc, hcond, hrun, hmem, hinput, hreg⟩ := awaitChar_frame .getc s
  exact ⟨_, rfl, hreg0, hreg, hout.trans (List.append_nil _), hinput, hdone, hpc, hcond, hrun, hmem⟩

/-- Settles O44: bits[7:0] are the value modulo 2^8. -/
theorem outEmitsTheLowByte : Obligations.OutEmitsTheLowByte := by
  intro s
  rw [← lowByte_eq]
  rfl

/-- Settles O49: one consultation of the host, after the prompt. -/
theorem inPromptsThenTakesOneCharacter : Obligations.InPromptsThenTakesOneCharacter := by
  refine fun s => ⟨fun c hc => ?_, fun hnone => ?_⟩
  · obtain ⟨hreg0, hout, hdone⟩ := awaitChar_of_some (s := emit Config.inPrompt s) .inp hc
    obtain ⟨hpc, hcond, hrun, hmem, hinput, hreg⟩ := awaitChar_frame .inp (emit Config.inPrompt s)
    exact ⟨_, rfl, hreg0, hreg, hout, hinput, hdone, hpc, hcond, hrun, hmem⟩
  · exact congrArg Host.Outcome.next (awaitChar_of_none (s := emit Config.inPrompt s) .inp hnone)

/-- Settles O50: by the definition of the service. -/
theorem haltEndsTheRun : Obligations.HaltEndsTheRun := fun _ => rfl

/-- Settles O51: by the definition of `raise`. -/
theorem reservedInstructionsFault : Obligations.ReservedInstructionsFault := fun _ => ⟨rfl, rfl, rfl, rfl⟩

/-- Settles O52: such a vector is no service's. -/
theorem unknownTrapVectorFaults : Obligations.UnknownTrapVectorFaults := by
  intro v s hv
  have hnot : isServiceVector v = false := by
    rw [isServiceVector, Bool.and_eq_false_iff, decide_eq_false_iff_not, decide_eq_false_iff_not]
    omega
  exact ⟨exec_trap_of_not_service hnot s, by rw [faultOf, hnot]; rfl⟩

/-- Settles O9: each vector is one of the six or none of them. -/
theorem trapVectorsAreAClosedSet : Obligations.TrapVectorsAreAClosedSet := by
  intro v s
  have hrange : isServiceVector v = decide (0x20 ≤ v.toNat ∧ v.toNat ≤ 0x25) := (Bool.decide_and ..).symm
  have hfault : faultOf (.trap v) = if 0x20 ≤ v.toNat ∧ v.toNat ≤ 0x25 then none else some (.unknownTrapVector v) := by
    rw [faultOf, hrange]
    simp
  refine ⟨?_, hfault⟩
  cases hv : isServiceVector v with
  | true =>
    rw [exec_trap_of_service hv]
    rcases (isServiceVector_iff v).mp hv with rfl | rfl | rfl | rfl | rfl | rfl <;> simp [trapInstr_service]
  | false =>
    simp [(isServiceVector_eq_false_iff v).mp hv, exec_trap_of_not_service hv]
end
